-- ==== Sys2Proof/Word.lean ====
section
/-! DEFINITION. The word types of SHA256-CORE (spec/00_scope.md R5, R7): every word value is an unsigned
32-bit number, and addition wraps modulo 2^32 (R8), which is what `+` on `BitVec 32` does. -/

namespace Sys2Proof

/-- A 32-bit word, `u32` of R7. -/
abbrev Word := BitVec 32

/-- A byte of the host's message or of the digest. -/
abbrev Byte := BitVec 8

/-- Eight words in register order: the accumulator H, the IV ROM, a digest (R5). -/
abbrev HashWords := Vector Word 8

/-- The sixteen words of one 512-bit block (R5, R16 "Block"). -/
abbrev Block := Vector Word 16

/-- The sixty-four words of a message schedule (R5, R16 "Message Schedule"). -/
abbrev Schedule := Vector Word 64

/-- A host transaction T, format HT of 30_encoding.md R80: 38 bits. -/
abbrev Transaction := BitVec 38

/-- A sequencer step word, format SQ of 30_encoding.md R85: 8 bits. -/
abbrev StepWord := BitVec 8

/-- A word address of the register port (20_memory.md R51): 5 bits. -/
abbrev PortAddr := BitVec 5

end Sys2Proof
end

