-- ==== Sys2Proof/Config.lean ====
section
/-! DEFINITION. What an implementation of SHA256-CORE fixes and the spec leaves open, as constants with no
body, so that no proof can use a value of one (spec/93_implementation_defined.md O1, O4, O5, O6). -/

namespace Sys2Proof

/-- DESIGN CHOICE (log 3): the free value of the registers a RESET leaves unspecified (10_state.md R39, R40;
70_reset_and_hazards.md R270). `resetWord n i` is what the n-th draw leaves in W[i] for i = 0..63 and in
a, ..., h for i = 64..71. -/
opaque Config.resetWord : Nat → Nat → Word

/-- The parameter `T_STEP_CYCLES` (R5, R290), left OPEN by the spec; no rule depends on it (log 15). -/
opaque Config.tStepCycles : Nat

/-- The parameter `PORT_BASE` (20_memory.md R63), left OPEN: where the port stands in a host's address
space. No rule of the block depends on it (log 15). -/
opaque Config.portBase : Nat

/-- The parameter `PORT_ADDR_MAP` (20_memory.md R63), left OPEN: the word address a host byte address
stands for, if it stands for one. No rule of the block depends on it (log 15). -/
opaque Config.portAddrMap : Nat → Option PortAddr

end Sys2Proof
end

