-- ==== Sys2Proof/Syntax.lean ====
section
/-! DEFINITION. The instructions of SHA256-CORE: one constructor for each row of spec/opcode_table.json, in
the table's order (30_encoding.md R87). Rows 1 to 14 are host transactions, rows 15 and 16 the engine's
micro-steps. A read carries no data word, since R81 makes two reads that differ only there the same
transaction (log 20); a write carries its data word, also where the block ignores it. -/

namespace Sys2Proof

/-- An operation of the block. -/
inductive Instr where
  /-- NOP: write CTRL with the command word 0. -/
  | nop
  /-- INIT: write CTRL with the command word 1. -/
  | init
  /-- BLOCK: write CTRL with the command word 2. -/
  | block
  /-- FINAL: write CTRL with the command word 3. -/
  | final
  /-- CTRL_ILLEGAL: write CTRL with any other data. -/
  | ctrlIllegal (data : Word)
  /-- RD_CTRL: read CTRL. -/
  | rdCtrl
  /-- RD_STATUS: read STATUS. -/
  | rdStatus
  /-- WR_STATUS: write STATUS. -/
  | wrStatus (data : Word)
  /-- RD_RSV: read the reserved word address `a`, 2 to 7. -/
  | rdRsv (a : Fin 8)
  /-- WR_RSV: write the reserved word address `a`, 2 to 7. -/
  | wrRsv (a : Fin 8) (data : Word)
  /-- RD_DIGEST: read DIGESTj. -/
  | rdDigest (j : Fin 8)
  /-- WR_DIGEST: write DIGESTj. -/
  | wrDigest (j : Fin 8) (data : Word)
  /-- RD_MSG: read MSGi. -/
  | rdMsg (i : Fin 16)
  /-- WR_MSG: write v to MSGi. -/
  | wrMsg (i : Fin 16) (v : Word)
  /-- ROUND: the engine micro-step ROUND(t). -/
  | round (t : Fin 64)
  /-- FOLD: the engine micro-step FOLD. -/
  | fold
  deriving DecidableEq, Repr

/-- The row's mnemonic, as spec/opcode_table.json spells it. -/
def Instr.mnemonic : Instr → String
  | .nop => "NOP"
  | .init => "INIT"
  | .block => "BLOCK"
  | .final => "FINAL"
  | .ctrlIllegal _ => "CTRL_ILLEGAL"
  | .rdCtrl => "RD_CTRL"
  | .rdStatus => "RD_STATUS"
  | .wrStatus _ => "WR_STATUS"
  | .rdRsv _ => "RD_RSV"
  | .wrRsv _ _ => "WR_RSV"
  | .rdDigest _ => "RD_DIGEST"
  | .wrDigest _ _ => "WR_DIGEST"
  | .rdMsg _ => "RD_MSG"
  | .wrMsg _ _ => "WR_MSG"
  | .round _ => "ROUND"
  | .fold => "FOLD"

end Sys2Proof
end

