-- ==== Sys2Proof/WellFormed.lean ====
section
/-! DEFINITION. Which terms of `Instr` stand for an operation of the opcode map (30_encoding.md R87). The
operand types already bound j, i and t; two checks are left. -/

namespace Sys2Proof

/-- A command word that is one of the four legal ones (30_encoding.md R82). -/
def legalCommandWord (data : Word) : Bool := data.toNat ≤ 3

/-- CTRL_ILLEGAL carries a data word that no earlier row takes (R82, R88), and a reserved address is one of
0x02 to 0x07 (R87 rows 9 and 10). -/
def Instr.wf : Instr → Bool
  | .ctrlIllegal data => !legalCommandWord data
  | .rdRsv a => 2 ≤ a.val
  | .wrRsv a _ => 2 ≤ a.val
  | .nop => true
  | .init => true
  | .block => true
  | .final => true
  | .rdCtrl => true
  | .rdStatus => true
  | .wrStatus _ => true
  | .rdDigest _ => true
  | .wrDigest _ _ => true
  | .rdMsg _ => true
  | .wrMsg _ _ => true
  | .round _ => true
  | .fold => true

end Sys2Proof
end

