-- ==== Sys2Proof/Decode.lean ====
section
/-! DEFINITION. The encodings of spec/30_encoding.md: the fields of a host transaction (R80), decoding in the
order of R86, the sequencer step word (R85), the encoder (R80, R95), and the opcode map as a table (R87). -/

namespace Sys2Proof

/-! ## The host transaction format HT -/

/-- Field we, T[37] (R80). -/
def htWe (T : Transaction) : Bool := T.getLsbD 37

/-- Field addr, T[36:32] (R80). -/
def htAddr (T : Transaction) : PortAddr := T.extractLsb' 32 5

/-- Field data, T[31:0] (R80). -/
def htData (T : Transaction) : Word := T.extractLsb' 0 32

/-- The transaction with the given fields, we in the most significant position (R80). -/
def htWord (we : Bool) (addr : PortAddr) (data : Word) : Transaction :=
  BitVec.ofBool we ++ addr ++ data

/-- addr[4:3]: which group of the register map an address selects (20_memory.md R55). -/
def addrGroup (addr : PortAddr) : BitVec 2 := addr.extractLsb' 3 2

/-- addr[2:0]: the DIGEST index, or the register within the control group (R84). -/
def addrLow3 (addr : PortAddr) : Fin 8 := (addr.extractLsb' 0 3).toFin

/-- addr[3:0]: the MSG index (R84). -/
def addrLow4 (addr : PortAddr) : Fin 16 := (addr.extractLsb' 0 4).toFin

/-- The command a CTRL write's data field is (R82, R86). -/
def decodeCommand (data : Word) : Instr :=
  if data = 0x00000000 then .nop
  else if data = 0x00000001 then .init
  else if data = 0x00000002 then .block
  else if data = 0x00000003 then .final
  else .ctrlIllegal data

/-- `decode_HT` of R86: total, every 38-bit T is one operation. -/
def decodeHT (T : Transaction) : Instr :=
  let we := htWe T
  let addr := htAddr T
  let data := htData T
  if we = true ∧ addr = 0x00 then decodeCommand data
  else if addr = 0x00 then .rdCtrl
  else if addr = 0x01 then (if we then .wrStatus data else .rdStatus)
  else if addrGroup addr = 0b00 then
    (if we then .wrRsv (addrLow3 addr) data else .rdRsv (addrLow3 addr))
  else if addrGroup addr = 0b01 then
    (if we then .wrDigest (addrLow3 addr) data else .rdDigest (addrLow3 addr))
  else (if we then .wrMsg (addrLow4 addr) data else .rdMsg (addrLow4 addr))

/-! ## The sequencer step word SQ -/

/-- Why a word is not an operation. -/
inductive DecodeError where
  /-- SQ = 0: busy = 0, no micro-step is enabled (R85). -/
  | noEngineStep
  /-- An SQ value that R86 calls unreachable: busy = 1 with t ≥ 65, or busy = 0 with t ≠ 0. -/
  | unreachableStep
  /-- Not a word of either format: a bit is set above the format's width. -/
  | strayBits
  deriving DecidableEq, Repr

/-- SQ with the given fields (R85): `SQ = busy·2^7 + t`. -/
def sqWord (busy : Bool) (t : BitVec 7) : StepWord := BitVec.ofBool busy ++ t

/-- Field busy, SQ[7] (R85). -/
def sqBusy (w : StepWord) : Bool := w.getLsbD 7

/-- Field t, SQ[6:0] (R85). -/
def sqRound (w : StepWord) : BitVec 7 := w.extractLsb' 0 7

/-- `decode_SQ` of R86. -/
def decodeSQ (w : StepWord) : Except DecodeError Instr :=
  if sqBusy w then
    if h : (sqRound w).toNat < 64 then .ok (.round ⟨(sqRound w).toNat, h⟩)
    else if sqRound w = 64 then .ok .fold
    else .error .unreachableStep
  else if sqRound w = 0 then .error .noEngineStep
  else .error .unreachableStep

/-! ## Both formats together -/

/-- A word of one of the two formats. -/
inductive Encoded where
  /-- A host transaction. -/
  | ht (T : Transaction)
  /-- A sequencer step word. -/
  | sq (w : StepWord)
  deriving DecidableEq, Repr

/-- Decoding, total on the words of both formats. -/
def decode : Encoded → Except DecodeError Instr
  | .ht T => .ok (decodeHT T)
  | .sq w => decodeSQ w

/-- The words of a well-formed operation, from the register names of R95 and the formats of R80 and R85. A
read's data field is written as 0 (R81). -/
def encode : Instr → Encoded
  | .nop => .ht (htWord true 0x00 0)
  | .init => .ht (htWord true 0x00 1)
  | .block => .ht (htWord true 0x00 2)
  | .final => .ht (htWord true 0x00 3)
  | .ctrlIllegal data => .ht (htWord true 0x00 data)
  | .rdCtrl => .ht (htWord false 0x00 0)
  | .rdStatus => .ht (htWord false 0x01 0)
  | .wrStatus data => .ht (htWord true 0x01 data)
  | .rdRsv a => .ht (htWord false (BitVec.ofNat 5 a.val) 0)
  | .wrRsv a data => .ht (htWord true (BitVec.ofNat 5 a.val) data)
  | .rdDigest j => .ht (htWord false (BitVec.ofNat 5 (0x08 + j.val)) 0)
  | .wrDigest j data => .ht (htWord true (BitVec.ofNat 5 (0x08 + j.val)) data)
  | .rdMsg i => .ht (htWord false (BitVec.ofNat 5 (0x10 + i.val)) 0)
  | .wrMsg i v => .ht (htWord true (BitVec.ofNat 5 (0x10 + i.val)) v)
  | .round t => .sq (sqWord true (BitVec.ofNat 7 t.val))
  | .fold => .sq (sqWord true 64)

/-- What the decoder reads from a word of the opcode table numbered as the table numbers it: an SQ word where
the row has at most 8 bits, else an HT word of 38 bits; a bit above the format's width is refused (log 18). -/
def decodeTable (nbits w : Nat) : Except DecodeError Instr :=
  if nbits ≤ 8 then
    if w < 2 ^ 8 then decode (.sq (BitVec.ofNat 8 w)) else .error .strayBits
  else
    if w < 2 ^ 38 then decode (.ht (BitVec.ofNat 38 w)) else .error .strayBits

/-- The host's question of one opcode-table word: the operation, or none where the decoder refuses. -/
def decodeTableWord (nbits w : Nat) : Option Instr :=
  match decodeTable nbits w with
  | .ok i => some i
  | .error _ => none

/-! ## The opcode map -/

/-- A row of the opcode map's HT part (R87). -/
structure OpcodeRow where
  /-- The row's mnemonic. -/
  mnemonic : String
  /-- The value the masked bits have. -/
  bits : Transaction
  /-- Which bits the row looks at. -/
  mask : Transaction
  deriving DecidableEq, Repr

/-- Rows 1 to 14 of R87, in decode order. -/
def opcodeMap : List OpcodeRow :=
  [⟨"NOP", 0x2000000000, 0x3FFFFFFFFF⟩,
   ⟨"INIT", 0x2000000001, 0x3FFFFFFFFF⟩,
   ⟨"BLOCK", 0x2000000002, 0x3FFFFFFFFF⟩,
   ⟨"FINAL", 0x2000000003, 0x3FFFFFFFFF⟩,
   ⟨"CTRL_ILLEGAL", 0x2000000000, 0x3F00000000⟩,
   ⟨"RD_CTRL", 0x0000000000, 0x3F00000000⟩,
   ⟨"RD_STATUS", 0x0100000000, 0x3F00000000⟩] ++
  [⟨"WR_STATUS", 0x2100000000, 0x3F00000000⟩,
   ⟨"RD_RSV", 0x0000000000, 0x3800000000⟩,
   ⟨"WR_RSV", 0x2000000000, 0x3800000000⟩,
   ⟨"RD_DIGEST", 0x0800000000, 0x3800000000⟩,
   ⟨"WR_DIGEST", 0x2800000000, 0x3800000000⟩,
   ⟨"RD_MSG", 0x1000000000, 0x3000000000⟩,
   ⟨"WR_MSG", 0x3000000000, 0x3000000000⟩]

/-- The first row, in table order, whose `T AND mask = match` (R86). -/
def firstRow (T : Transaction) : Option OpcodeRow :=
  opcodeMap.find? fun r => T &&& r.mask == r.bits

end Sys2Proof
end

