-- ==== Sys2Proof/Machine/State.lean ====
section
/-! DEFINITION. The state of SHA256-CORE: the record of 10_state.md R20, then the model's own fields, and the
state after reset (R39). -/

namespace Sys2Proof.Machine

/-- The §4.4 state machine (10_state.md R29). The 2-bit value 3 is never written, so it has no constructor
(log 12). -/
inductive Phase where
  /-- IDLE (0): no block folded or started in this invocation. -/
  | idle
  /-- ACCUM (1): at least one block accepted. -/
  | accum
  /-- FINAL (2): finalised, the digest is readable. -/
  | final
  deriving DecidableEq, Repr

/-- The error codes a host action can raise (60_exceptions.md R241). -/
inductive CmdError where
  /-- Code 1: CTRL written with an illegal command word. -/
  | illegalCmd
  /-- Code 2: INIT, BLOCK or FINAL while busy = 1. -/
  | busy
  /-- Code 3: BLOCK in phase FINAL, or FINAL in phase IDLE or FINAL. -/
  | sequence
  /-- Code 4: a write to STATUS or DIGEST0-7. -/
  | writeRo
  /-- Code 5: a write to word address 0x02 to 0x07. -/
  | unmapped
  deriving DecidableEq, Repr

/-- The working registers a..h (10_state.md R22). -/
structure Working where
  /-- Working register a. -/
  a : Word
  /-- Working register b. -/
  b : Word
  /-- Working register c. -/
  c : Word
  /-- Working register d. -/
  d : Word
  /-- Working register e. -/
  e : Word
  /-- Working register f. -/
  f : Word
  /-- Working register g. -/
  g : Word
  /-- Working register h. -/
  h : Word
  deriving DecidableEq, Repr

/-- One action of the host. -/
inductive HostAction where
  /-- A port transaction (30_encoding.md R80). -/
  | transaction (T : Transaction)
  /-- POLL (30_encoding.md R96): STATUS is read until bit 0 of the value is 0. `gaps` lists, for each further
  read, how many engine micro-steps fall before it; after the list is used up the engine first finishes the
  block (log 7). -/
  | poll (gaps : List Nat)
  /-- The driver's `s <- rd STATUS; if s[3] = 1: fail` (41_preprocessor_host.md R118): one STATUS read, and when bit 3
  of the value is 1 the host leaves out its next `skip` actions (log 14). -/
  | statusCheck (skip : Nat)
  /-- RESET (70_reset_and_hazards.md R270). -/
  | reset
  deriving DecidableEq, Repr

/-- An action the host has yet to take, and how many engine micro-steps fall between the action before it
and this one, as far as they are enabled (20_memory.md R66, log 6). -/
structure HostEntry where
  /-- The number of enabled engine micro-steps that come first. -/
  gap : Nat
  /-- What the host then does. -/
  action : HostAction
  deriving DecidableEq, Repr

/-- The whole state. -/
structure State where
  /-- The accumulator H0-H7 (R21). -/
  H : HashWords
  /-- The working registers a..h (R22). -/
  work : Working
  /-- The message schedule W[0..63] (R23). -/
  W : Schedule
  /-- The block buffer MSG0-MSG15 (R24). -/
  M : Block
  /-- The round counter (R26). -/
  t : BitVec 7
  /-- A block is being compressed (R28). -/
  busy : Bool
  /-- The §4.4 state machine (R29). -/
  phase : Phase
  /-- An error has been recorded (R30). -/
  err : Bool
  /-- The code of the first recorded error (R30). -/
  errcode : BitVec 4
  /-- The model's own history flag: some CmdError was raised, ever (60_exceptions.md R247, log 5). -/
  everErr : Bool
  /-- The model's own: what the host will do, next first (log 6). -/
  script : List HostEntry
  /-- The model's own: the words that reads returned to the host, oldest first (log 9). -/
  replies : List Word
  /-- The model's own: how many times a RESET has drawn free values for W and a..h (log 4). -/
  draws : Nat
  deriving DecidableEq, Repr

/-- Why the machine stops. -/
inductive Fault where
  /-- Raised by the engine's turn (Machine/Fetch.lean): the sequencer word (busy, t) is one that 30_encoding.md
  R86 calls unreachable; 93_implementation_defined.md F7 says to fault. Safe: no step from a state with the
  invariants of 10_state.md R31 raises it, and the hardware has no such state (log 10). -/
  | unreachableSequencer
  deriving DecidableEq, Repr

/-- Why an instruction has no meaning in a state. -/
inductive Refusal where
  /-- The instruction has no meaning in this model yet. Raised only by Machine/Dispatch.lean. Safe. -/
  | notModelled (mnemonic : String)
  /-- Raised by ROUND and FOLD run in a state that does not enable them (43_compressor.md R159 and
  44_accumulator_sequencer.md R182, "Enabled when"): the spec gives them no effect there, and no step of the
  machine runs them there. Safe (log 11). -/
  | microStepNotEnabled
  deriving DecidableEq, Repr

/-- The machine right after reset (10_state.md R39). W and a..h, which R39 leaves unspecified, are 0: DESIGN
CHOICE (log 1, log 2); the model's own fields start empty (log 4, log 5, log 6, log 9). -/
def State.reset : State where
  H := romIV
  work := ⟨0, 0, 0, 0, 0, 0, 0, 0⟩
  W := Vector.replicate 64 0
  M := Vector.replicate 16 0
  t := 0
  busy := false
  phase := .idle
  err := false
  errcode := 0
  everErr := false
  script := []
  replies := []
  draws := 0

end Sys2Proof.Machine
end

