-- ==== Sys2Proof/Machine/Flags.lean ====
section
/-! DEFINITION. The encodings of the sequencer's flags: the phase field, the error codes, the STATUS word
(10_state.md R33) and the sequencer step word (30_encoding.md R85). No arithmetic step writes a flag (R37). -/

namespace Sys2Proof.Machine

/-- The PHASE field: IDLE = 0, ACCUM = 1, FINAL = 2 (R29, R33). -/
def phaseBits : Phase → BitVec 2
  | .idle => 0
  | .accum => 1
  | .final => 2

/-- The 4-bit code of an error (60_exceptions.md R241). -/
def errorCode : CmdError → BitVec 4
  | .illegalCmd => 1
  | .busy => 2
  | .sequence => 3
  | .writeRo => 4
  | .unmapped => 5

/-- The STATUS word, `zext_32({t[6:0], errcode[3:0], err, phase[1:0], busy})` (R33). -/
def statusWord (s : State) : Word :=
  (s.t ++ s.errcode ++ BitVec.ofBool s.err ++ phaseBits s.phase ++ BitVec.ofBool s.busy : BitVec 15).setWidth 32

/-- The sequencer step word of a state, {busy, t} (R85). -/
def sequencerWord (s : State) : StepWord := sqWord s.busy s.t

end Sys2Proof.Machine
end

