-- ==== Sys2Proof/Machine/Operands.lean ====
section
/-! DEFINITION. The word operators of 00_scope.md R9 to R11, the mixing functions made of them
(42_schedule_expander.md R130, R131; 43_compressor.md R150 to R153), and the byte order of the host's words
and the digest's bytes (R12 `be32`, 44_accumulator_sequencer.md R193). Addition is `+` on `BitVec 32` (R8);
AND, OR, XOR and NOT are `&&&`, `|||`, `^^^` and `~~~` (R11). -/

namespace Sys2Proof.Machine

/-- `ROTR(x, n)` for 0 < n < 32 (R9). -/
def rotr (x : Word) (n : Nat) : Word := (x >>> n) ||| (x <<< (32 - n))

/-- `SHR(x, n)` for 0 < n < 32, the logical shift (R10). -/
def shr (x : Word) (n : Nat) : Word := x >>> n

/-- The schedule's σ0 (R130). -/
def sigma0 (x : Word) : Word := rotr x 7 ^^^ rotr x 18 ^^^ shr x 3

/-- The schedule's σ1 (R131). -/
def sigma1 (x : Word) : Word := rotr x 17 ^^^ rotr x 19 ^^^ shr x 10

/-- The round's Σ0 (R150). -/
def bigSigma0 (a : Word) : Word := rotr a 2 ^^^ rotr a 13 ^^^ rotr a 22

/-- The round's Σ1 (R151). -/
def bigSigma1 (e : Word) : Word := rotr e 6 ^^^ rotr e 11 ^^^ rotr e 25

/-- `Ch(e, f, g)` (R152). -/
def ch (e f g : Word) : Word := (e &&& f) ^^^ (~~~e &&& g)

/-- `Maj(a, b, c)` (R153). -/
def maj (a b c : Word) : Word := (a &&& b) ^^^ (a &&& c) ^^^ (b &&& c)

/-- `be32(b0, b1, b2, b3)`: byte b0 in bits [31:24] (R12, 41_preprocessor_host.md R115). -/
def be32 (b0 b1 b2 b3 : Byte) : Word := b0 ++ b1 ++ b2 ++ b3

/-- Byte k of a word, k = 0 the most significant: `x[31 - 8k : 24 - 8k]` (R193). -/
def wordByte (x : Word) (k : Fin 4) : Byte := x.extractLsb' (24 - 8 * k.val) 8

/-- The 32 bytes of eight words, big-endian, in register order (R193). -/
def serialize (H : HashWords) : Vector Byte 32 :=
  Vector.ofFn fun n : Fin 32 =>
    wordByte (H[n.val / 4]'(by omega)) ⟨n.val % 4, Nat.mod_lt _ (by decide)⟩

/-- Word-wise addition modulo 2^32 of two eight-word states (44_accumulator_sequencer.md R192 `⊞`). -/
def addWords (x y : HashWords) : HashWords := Vector.zipWith (· + ·) x y

/-- The working registers as eight words in register order: H0 corresponds to a and H7 to h (R21). -/
def Working.toWords (v : Working) : HashWords := #v[v.a, v.b, v.c, v.d, v.e, v.f, v.g, v.h]

/-- Eight words in register order as working registers (R21). -/
def Working.ofWords (x : HashWords) : Working := ⟨x[0], x[1], x[2], x[3], x[4], x[5], x[6], x[7]⟩

end Sys2Proof.Machine
end

