-- ==== Sys2Proof/Machine/Ops.lean ====
section
/-! DEFINITION. The named operations over the state. Every meaning is made of these; each writes the fields
its docstring names and no other. -/

namespace Sys2Proof.Machine

/-! ## Recording an error, and clearing it

The block has no traps (60_exceptions.md R240, R248): what it does in place of taking an exception is to record
the first error, and what it does in place of a return is to clear the record (R249). -/

/-- `raise CmdError(code)` (R241, 10_state.md R30): the first error since the record was cleared is kept. It
writes err and errcode, and the model's history flag (R247). -/
def raise (code : CmdError) (s : State) : State :=
  if s.err then { s with everErr := true }
  else { s with err := true, errcode := errorCode code, everErr := true }

/-- Clears the error record (R185, R249). It writes err and errcode; the history flag stays (R247). -/
def clearError (s : State) : State := { s with err := false, errcode := 0 }

/-! ## The port -/

/-- The word a read returns goes to the host (30_encoding.md R80). No register changes (20_memory.md R58 a). -/
def deliver (v : Word) (s : State) : State := { s with replies := s.replies ++ [v] }

/-- What DIGESTj reads as: H[j] in phase FINAL, else 0 (10_state.md R34). -/
def digestValue (j : Fin 8) (s : State) : Word := if s.phase = .final then s.H[j] else 0x00000000

/-- What MSGi reads as (10_state.md R35). -/
def msgValue (i : Fin 16) (s : State) : Word := s.M[i]

/-- `M[i] <- v` (45_register_access.md R216). -/
def writeMsg (i : Fin 16) (v : Word) (s : State) : State := { s with M := s.M.set i.val v }

/-- The read column of the register map (20_memory.md R55), by address bits: addr[4] = 1 is MSG, addr[4:3] = 01
is DIGEST, and in the control group register 1 is STATUS and every other reads 0. -/
def portRead (addr : PortAddr) (s : State) : Word :=
  if addr.getLsbD 4 then msgValue (addrLow4 addr) s
  else if addr.getLsbD 3 then digestValue (addrLow3 addr) s
  else if addr = 0x01 then statusWord s
  else 0x00000000

/-! ## The sequencer -/

/-- `H[j] <- IV[j]` for every j (44_accumulator_sequencer.md R185). It writes H. -/
def loadInitialHash (s : State) : State := { s with H := romIV }

/-- phase <- IDLE and t <- 0 (R185). -/
def enterIdle (s : State) : State := { s with phase := .idle, t := 0 }

/-- A schedule whose words 0 to 15 are a block's, the others those of `W` (42_schedule_expander.md R132). It is
irreducible only so that a unifier does not compare 64 words; its two lemmas are in Laws/State.lean. -/
@[irreducible] def withBlock (B : Block) (W : Schedule) : Schedule :=
  Vector.ofFn fun i : Fin 64 => if h : i.val < 16 then B[i.val] else W[i]

/-- W[0..15] <- M (R132). W[16..63] keep their values. -/
def loadSchedule (s : State) : State := { s with W := withBlock s.M s.W }

/-- (a, ..., h) <- (H[0], ..., H[7]) (44_accumulator_sequencer.md R186). It writes the working registers. -/
def loadWorking (s : State) : State := { s with work := .ofWords s.H }

/-- t <- 0, busy <- 1, phase <- ACCUM (R186). -/
def startRounds (s : State) : State := { s with t := 0, busy := true, phase := .accum }

/-- phase <- FINAL (R187). -/
def enterFinal (s : State) : State := { s with phase := .final }

/-- busy <- 0 and t <- 0 (R182). -/
def endRounds (s : State) : State := { s with busy := false, t := 0 }

/-- t <- t + 1, the sequencer's advance (10_state.md R27). -/
def advanceRound (s : State) : State := { s with t := s.t + 1 }

/-! ## RESET -/

/-- The free values of W after the n-th RESET (10_state.md R39, log 3). -/
def freeSchedule (n : Nat) : Schedule := Vector.ofFn fun i : Fin 64 => Config.resetWord n i.val

/-- The free values of a..h after the n-th RESET (10_state.md R39, log 3). -/
def freeWorking (n : Nat) : Working :=
  ⟨Config.resetWord n 64, Config.resetWord n 65, Config.resetWord n 66, Config.resetWord n 67,
   Config.resetWord n 68, Config.resetWord n 69, Config.resetWord n 70, Config.resetWord n 71⟩

/-- RESET (70_reset_and_hazards.md R270): one atomic transition, in any state. W and a..h take free values. The
history flag, the host's script and its replies are not the block's and stay. -/
def resetBlock (s : State) : State :=
  { s with
    H := romIV, M := Vector.replicate 16 0, t := 0, busy := false, phase := .idle
    err := false, errcode := 0
    W := freeSchedule s.draws, work := freeWorking s.draws, draws := s.draws + 1 }

end Sys2Proof.Machine
end

