-- ==== Sys2Proof/Machine/Schedule.lean ====
section
/-! DEFINITION. The message-schedule expander (spec/42_schedule_expander.md). -/

namespace Sys2Proof.Machine

/-- The word EXPAND(t) computes, for 16 ≤ t ≤ 63, from words below t (R133). -/
def scheduleWord (W : Schedule) (t : Fin 64) : Word :=
  W[t.val - 16]'(by omega) + sigma0 (W[t.val - 15]'(by omega)) + W[t.val - 7]'(by omega)
    + sigma1 (W[t.val - 2]'(by omega))

/-- EXPAND(t) on the schedule file: it writes W[t] when t ≥ 16, and nothing for t ≤ 15 (R133). -/
def expandWord (t : Fin 64) (W : Schedule) : Schedule :=
  if 16 ≤ t.val then W.set t.val (scheduleWord W t) else W

/-- EXPAND(t) on the state (R133). -/
def expandAt (t : Fin 64) (s : State) : State := { s with W := expandWord t s.W }

/-- EXPAND(0), ..., EXPAND(n-1) in that order. -/
def expandTo : (n : Nat) → n ≤ 64 → Schedule → Schedule
  | 0, _, W => W
  | n + 1, hn, W => expandWord ⟨n, hn⟩ (expandTo n (Nat.le_of_succ_le hn) W)

/-- `Expand(B)`: the 64-word schedule of a block (R134). -/
def expand (B : Block) : Schedule :=
  expandTo 64 (Nat.le_refl 64) (withBlock B (Vector.replicate 64 0))

end Sys2Proof.Machine
end

