-- ==== Sys2Proof/Machine/Compressor.lean ====
section
/-! DEFINITION. The compression engine (spec/43_compressor.md): one round of the working registers, the
micro-step ROUND, and the compression function. -/

namespace Sys2Proof.Machine

/-- temp1 of a round, from the registers before it, the round's constant and its schedule word (R154). -/
def temp1 (v : Working) (k w : Word) : Word := v.h + bigSigma1 v.e + ch v.e v.f v.g + k + w

/-- temp2 of a round (R154). -/
def temp2 (v : Working) : Word := bigSigma0 v.a + maj v.a v.b v.c

/-- The register shift of one round, a simultaneous assignment (R159, R160). -/
def roundWorking (v : Working) (k w : Word) : Working where
  a := temp1 v k w + temp2 v
  b := v.a
  c := v.b
  d := v.c
  e := v.d + temp1 v k w
  f := v.e
  g := v.f
  h := v.g

/-- The working registers' part of ROUND(t): K[t] and W[t], as EXPAND(t) left it, enter the round (R159). -/
def mixRound (t : Fin 64) (s : State) : State :=
  { s with work := roundWorking s.work (roundConstant t) s.W[t] }

/-- ROUND(t) (R159): enabled when busy = 1 and the round counter is t; it writes W[t] (for t ≥ 16), a..h and t.
Where it is not enabled the spec gives it no effect and the model refuses (log 11). -/
def execRound (t : Fin 64) (s : State) : Host.Outcome State Fault Refusal :=
  if s.busy = true ∧ s.t.toNat = t.val then .next (advanceRound (mixRound t (expandAt t s)))
  else .refused .microStepNotEnabled

/-- The first n rounds of `Compress` (R162). -/
def compressTo : (n : Nat) → n ≤ 64 → Working → Schedule → Working
  | 0, _, v, _ => v
  | n + 1, hn, v, W =>
    roundWorking (compressTo n (Nat.le_of_succ_le hn) v W) (roundConstant ⟨n, hn⟩) (W[n]'hn)

/-- `Compress(S, W)` (R162). -/
def compress (S : HashWords) (W : Schedule) : HashWords :=
  (compressTo 64 (Nat.le_refl 64) (.ofWords S) W).toWords

/-- The per-block update of the accumulator, `H ⊞ Compress(H, Expand(B))` (44_accumulator_sequencer.md R192). -/
def blockUpdate (H : HashWords) (B : Block) : HashWords := addWords H (compress H (expand B))

end Sys2Proof.Machine
end

