-- ==== Sys2Proof/Machine/Accumulator.lean ====
section
/-! DEFINITION. The accumulator and the commands (spec/44_accumulator_sequencer.md). -/

namespace Sys2Proof.Machine

/-- The accumulator's part of FOLD: each working register is added to its accumulator register, word by word
(R182). -/
def foldWords (s : State) : State := { s with H := addWords s.H s.work.toWords }

/-- FOLD (R182): enabled when busy = 1 and t = 64; it writes H, busy and t. Where it is not enabled the spec gives
it no effect and the model refuses (log 11). -/
def execFold (s : State) : Host.Outcome State Fault Refusal :=
  if s.busy = true ∧ s.t = 64 then .next (endRounds (foldWords s))
  else .refused .microStepNotEnabled

/-- NOP (R184): no state change, in every state. -/
def execNop (s : State) : Host.Outcome State Fault Refusal := .next s

/-- INIT (R185). -/
def execInit (s : State) : Host.Outcome State Fault Refusal :=
  if s.busy then .next (raise .busy s)
  else .next (clearError (enterIdle (loadInitialHash s)))

/-- BLOCK (R186). -/
def execBlock (s : State) : Host.Outcome State Fault Refusal :=
  if s.busy then .next (raise .busy s)
  else if s.phase = .final then .next (raise .sequence s)
  else .next (startRounds (loadWorking (loadSchedule s)))

/-- FINAL (R187). -/
def execFinal (s : State) : Host.Outcome State Fault Refusal :=
  if s.busy then .next (raise .busy s)
  else if s.phase ≠ .accum then .next (raise .sequence s)
  else .next (enterFinal s)

/-- CTRL_ILLEGAL (R188): rejected in every state, busy included; the data word is not used. -/
def execCtrlIllegal (_data : Word) (s : State) : Host.Outcome State Fault Refusal :=
  .next (raise .illegalCmd s)

end Sys2Proof.Machine
end

