-- ==== Sys2Proof/Machine/Registers.lean ====
section
/-! DEFINITION. Host register access (spec/45_register_access.md): reads return a word to the host and change no
register; a write either writes MSGi or is rejected with a recorded error. -/

namespace Sys2Proof.Machine

/-- RD_CTRL (R210): 0, CTRL holds no state. -/
def execRdCtrl (s : State) : Host.Outcome State Fault Refusal := .next (deliver 0x00000000 s)

/-- RD_STATUS (R211). -/
def execRdStatus (s : State) : Host.Outcome State Fault Refusal := .next (deliver (statusWord s) s)

/-- WR_STATUS (R213): the data word is ignored. -/
def execWrStatus (_data : Word) (s : State) : Host.Outcome State Fault Refusal := .next (raise .writeRo s)

/-- RD_DIGEST (R214). -/
def execRdDigest (j : Fin 8) (s : State) : Host.Outcome State Fault Refusal := .next (deliver (digestValue j s) s)

/-- WR_DIGEST (R215): index and data word are ignored, H is never written. -/
def execWrDigest (_j : Fin 8) (_data : Word) (s : State) : Host.Outcome State Fault Refusal :=
  .next (raise .writeRo s)

/-- WR_MSG (R216): accepted in every state. -/
def execWrMsg (i : Fin 16) (v : Word) (s : State) : Host.Outcome State Fault Refusal := .next (writeMsg i v s)

/-- RD_MSG (R217). -/
def execRdMsg (i : Fin 16) (s : State) : Host.Outcome State Fault Refusal := .next (deliver (msgValue i s) s)

/-- RD_RSV (R218): 0, and no error is recorded. -/
def execRdRsv (_a : Fin 8) (s : State) : Host.Outcome State Fault Refusal := .next (deliver 0x00000000 s)

/-- WR_RSV (R219): address and data word are ignored, nothing is stored. -/
def execWrRsv (_a : Fin 8) (_data : Word) (s : State) : Host.Outcome State Fault Refusal :=
  .next (raise .unmapped s)

end Sys2Proof.Machine
end

