-- ==== Sys2Proof/Machine/Dispatch.lean ====
section
/-! DEFINITION. The meaning of each instruction, one arm a row of the opcode table. -/

namespace Sys2Proof.Machine

/-- The meaning of an instruction. -/
def exec (i : Instr) (s : State) : Host.Outcome State Fault Refusal :=
  match i with
  | .nop => Sys2Proof.Machine.execNop s
  | .init => Sys2Proof.Machine.execInit s
  | .block => Sys2Proof.Machine.execBlock s
  | .final => Sys2Proof.Machine.execFinal s
  | .ctrlIllegal data => Sys2Proof.Machine.execCtrlIllegal data s
  | .rdCtrl => Sys2Proof.Machine.execRdCtrl s
  | .rdStatus => Sys2Proof.Machine.execRdStatus s
  | .wrStatus data => Sys2Proof.Machine.execWrStatus data s
  | .rdRsv a => Sys2Proof.Machine.execRdRsv a s
  | .wrRsv a data => Sys2Proof.Machine.execWrRsv a data s
  | .rdDigest j => Sys2Proof.Machine.execRdDigest j s
  | .wrDigest j data => Sys2Proof.Machine.execWrDigest j data s
  | .rdMsg n => Sys2Proof.Machine.execRdMsg n s
  | .wrMsg n v => Sys2Proof.Machine.execWrMsg n v s
  | .round t => Sys2Proof.Machine.execRound t s
  | .fold => Sys2Proof.Machine.execFold s

end Sys2Proof.Machine
end

