-- ==== Sys2Proof/Machine/Fetch.lean ====
section
/-! DEFINITION. Which transition comes next. The block fetches no instructions (10_state.md R27): the host's
next action and the engine's sequencer word take the place of a fetch. Host transactions and engine micro-steps
form one total order (20_memory.md R65); between two host transactions any number of enabled micro-steps may
fall, zero included (R66), and the script says how many (log 6). -/

namespace Sys2Proof.Machine

/-- What the next transition is. -/
inductive Fetched where
  /-- Operation `i`, run from state `s`. -/
  | run (i : Instr) (s : State)
  /-- The host's RESET, from state `s`. -/
  | reset (s : State)
  /-- No agent has a step: the block waits and keeps its state (60_exceptions.md R257, log 8). -/
  | wait
  /-- The machine stops. -/
  | stop (r : Fault)

/-- The engine micro-steps of one accepted block: 64 ROUND and one FOLD (70_reset_and_hazards.md R285). -/
def microStepsPerBlock : Nat := 65

/-- The script after a POLL's STATUS read that returned `status`: with bit 0 clear the POLL is done, else the
POLL reads again (30_encoding.md R96), after the next gap of its list, or, when the list is used up, after the
engine has had the steps of a whole block (log 7). -/
def pollAgain (status : Word) (gaps : List Nat) (rest : List HostEntry) : List HostEntry :=
  if status.getLsbD 0 then
    match gaps with
    | [] => ⟨microStepsPerBlock, .poll []⟩ :: rest
    | g :: gs => ⟨g, .poll gs⟩ :: rest
  else rest

/-- The script after the driver's STATUS check read `status`: with bit 3 set the driver fails and does not issue the
next `skip` actions (41_preprocessor_host.md R118, log 14). -/
def afterCheck (status : Word) (skip : Nat) (rest : List HostEntry) : List HostEntry :=
  if status.getLsbD 3 then rest.drop skip else rest

/-- The host's turn: its next action, taken off the script. -/
def hostTurn (action : HostAction) (rest : List HostEntry) (s : State) : Fetched :=
  match action with
  | .transaction T => .run (decodeHT T) { s with script := rest }
  | .poll gaps => .run .rdStatus { s with script := pollAgain (statusWord s) gaps rest }
  | .statusCheck skip => .run .rdStatus { s with script := afterCheck (statusWord s) skip rest }
  | .reset => .reset { s with script := rest }

/-- Whose turn it is. A script entry with gap 0 is the host's turn. With a larger gap the engine takes a
micro-step if one is enabled and the gap shrinks by one; if none is enabled the host goes on. With an empty
script the engine takes its steps until none is enabled. The engine's micro-step is what the sequencer word
decodes to (30_encoding.md R85, R86). -/
def fetch (s : State) : Fetched :=
  match s.script with
  | ⟨0, action⟩ :: rest => hostTurn action rest s
  | ⟨g + 1, action⟩ :: rest =>
    match decodeSQ (sequencerWord s) with
    | .ok i => .run i { s with script := ⟨g, action⟩ :: rest }
    | .error .noEngineStep => hostTurn action rest s
    | .error _ => .stop .unreachableSequencer
  | [] =>
    match decodeSQ (sequencerWord s) with
    | .ok i => .run i s
    | .error .noEngineStep => .wait
    | .error _ => .stop .unreachableSequencer

/-- Puts a host transaction first in the host's script, with no micro-step before it. -/
def placeTransaction (T : Transaction) (s : State) : State :=
  { s with script := ⟨0, .transaction T⟩ :: s.script }

/-- Gives the engine the next turn: one more micro-step before the host's next action, if there is one. -/
def engineFirst : List HostEntry → List HostEntry
  | [] => []
  | e :: rest => { e with gap := e.gap + 1 } :: rest

/-- Sets the sequencer to the step word `w` and gives the engine the next turn (log 19). -/
def placeStepWord (w : StepWord) (s : State) : State :=
  { s with busy := sqBusy w, t := sqRound w, script := engineFirst s.script }

end Sys2Proof.Machine
end

