-- ==== Sys2Proof/Machine/Step.lean ====
section
/-! DEFINITION. One step of the machine: one atomic transition of the total order of 20_memory.md R65. -/

namespace Sys2Proof.Machine

/-- One transition: an engine micro-step, a host transaction, a RESET, or, when no agent has a step, waiting. -/
def step (s : State) : Host.Outcome State Fault Refusal :=
  match fetch s with
  | .run i s' => exec i s'
  | .reset s' => .next (resetBlock s')
  | .wait => .next s
  | .stop r => .fault r

/-- `s` with the given opcode-table word placed so that the very next step runs it: a host transaction is put
first in the host's script, a sequencer step word into the sequencer (log 13, log 19). -/
def State.withFetchWord (s : State) (nbits w : Nat) : State :=
  if nbits ≤ 8 then placeStepWord (BitVec.ofNat 8 w) s else placeTransaction (BitVec.ofNat 38 w) s

end Sys2Proof.Machine
end

