-- ==== Sys2Proof/Machine/Script.lean ====
section
/-! DEFINITION. Host scripts (30_encoding.md R95, R96): what the host issues, line by line, the expansion of the
pseudo-instructions, the text form, and how a schedule turns the actions into the entries State.script holds.
This is the host's layer: no step of the block uses it. -/

namespace Sys2Proof.Machine

/-! ## Transactions and pseudo-instructions -/

/-- `rd R`: the transaction `addr(R)·2^32` (R95). -/
def readReg (addr : PortAddr) : HostAction := .transaction (htWord false addr 0)

/-- `wr R, v`: the transaction `2^37 + addr(R)·2^32 + v` (R95). -/
def writeReg (addr : PortAddr) (v : Word) : HostAction := .transaction (htWord true addr v)

/-- The word address of CTRL (20_memory.md R55). -/
def ctrlAddr : PortAddr := 0x00

/-- The word address of STATUS (R55). -/
def statusAddr : PortAddr := 0x01

/-- The word address of DIGESTj (R55). -/
def digestAddr (j : Fin 8) : PortAddr := BitVec.ofNat 5 (0x08 + j.val)

/-- The word address of MSGi (R55). -/
def msgAddr (i : Fin 16) : PortAddr := BitVec.ofNat 5 (0x10 + i.val)

/-- A line of a host script: one transaction or one pseudo-instruction (R95, R96). -/
inductive ScriptLine where
  /-- `rd <reg>`. -/
  | rd (addr : PortAddr)
  /-- `wr <reg>, <value>`. -/
  | wr (addr : PortAddr) (v : Word)
  /-- `NOP`. -/
  | nop
  /-- `INIT`. -/
  | init
  /-- `BLOCK`. -/
  | block
  /-- `FINAL`. -/
  | final
  /-- `POLL`. -/
  | poll
  /-- `LOADBLK w0, ..., w15`. -/
  | loadblk (words : Block)
  /-- `RDDIGEST`. -/
  | rddigest
  deriving DecidableEq, Repr

/-- The actions a line issues, in order (R96). -/
def expandLine : ScriptLine → List HostAction
  | .rd addr => [readReg addr]
  | .wr addr v => [writeReg addr v]
  | .nop => [writeReg ctrlAddr 0x00000000]
  | .init => [writeReg ctrlAddr 0x00000001]
  | .block => [writeReg ctrlAddr 0x00000002]
  | .final => [writeReg ctrlAddr 0x00000003]
  | .poll => [.poll []]
  | .loadblk words => (List.finRange 16).map fun i => writeReg (msgAddr i) words[i]
  | .rddigest => (List.finRange 8).map fun j => readReg (digestAddr j)

/-- The actions of a script, in order. -/
def expandScript (lines : List ScriptLine) : List HostAction := lines.flatMap expandLine

/-! ## Schedules -/

/-- An action without its schedule: a POLL with no list of gaps. -/
def HostAction.bare : HostAction → HostAction
  | .transaction T => .transaction T
  | .poll _ => .poll []
  | .statusCheck skip => .statusCheck skip
  | .reset => .reset

/-- `entries` is the list of actions with some schedule (20_memory.md R66): any gap before each action, and any
gaps between the reads of a POLL. -/
def schedules (entries : List HostEntry) (actions : List HostAction) : Prop :=
  entries.map (fun e => e.action.bare) = actions

/-- The eager schedule of spec/95_test_vectors.md section 11: the engine runs until busy = 0 after every action. -/
def eagerSchedule (actions : List HostAction) : List HostEntry :=
  actions.map fun a => ⟨microStepsPerBlock, a⟩

/-- The lazy schedule of section 11: the engine takes a step only while a POLL reads BUSY = 1, one per read. -/
def lazySchedule (actions : List HostAction) : List HostEntry :=
  actions.map fun a =>
    match a with
    | .poll _ => ⟨0, .poll (List.replicate microStepsPerBlock 1)⟩
    | .transaction T => ⟨0, .transaction T⟩
    | .statusCheck skip => ⟨0, .statusCheck skip⟩
    | .reset => ⟨0, .reset⟩

/-! ## The text form

What R95 leaves open of the text is DESIGN CHOICE, log 21: blanks and tabs separate, a comma stands between
operands, a name is written in capitals as R95 lists it, a value has one to eight hex digits of either case, and a
raw address has two. A script is given as its characters. -/

/-- The parts of `cs` between the characters that `sep` accepts. -/
def splitAtSep (sep : Char → Bool) : List Char → List (List Char)
  | [] => [[]]
  | c :: cs =>
    if sep c then [] :: splitAtSep sep cs
    else
      match splitAtSep sep cs with
      | [] => [[c]]
      | w :: ws => (c :: w) :: ws

/-- A line up to its comment (R95: `;` starts a comment to the end of the line). -/
def stripComment (cs : List Char) : List Char := cs.takeWhile (· ≠ ';')

/-- Writes a blank on either side of each comma, so that a comma is a token of its own. -/
def spaceCommas : List Char → List Char
  | [] => []
  | c :: cs => if c = ',' then ' ' :: ',' :: ' ' :: spaceCommas cs else c :: spaceCommas cs

/-- The tokens of a line. -/
def lineTokens (cs : List Char) : List (List Char) :=
  (splitAtSep (fun c => c = ' ' ∨ c = '\t' ∨ c = '\r') (spaceCommas (stripComment cs))).filter (· ≠ [])

/-- The value of a hex digit. -/
def hexDigit (c : Char) : Option Nat :=
  if '0'.toNat ≤ c.toNat ∧ c.toNat ≤ '9'.toNat then some (c.toNat - '0'.toNat)
  else if 'a'.toNat ≤ c.toNat ∧ c.toNat ≤ 'f'.toNat then some (c.toNat - 'a'.toNat + 10)
  else if 'A'.toNat ≤ c.toNat ∧ c.toNat ≤ 'F'.toNat then some (c.toNat - 'A'.toNat + 10)
  else none

/-- The number a list of hex digits writes, most significant first, after `acc`. -/
def hexDigits : Nat → List Char → Option Nat
  | acc, [] => some acc
  | acc, c :: cs =>
    match hexDigit c with
    | some d => hexDigits (16 * acc + d) cs
    | none => none

/-- A 32-bit hex literal `0x...` (R6, R95). -/
def parseValue : List Char → Option Word
  | '0' :: 'x' :: cs =>
    if 1 ≤ cs.length ∧ cs.length ≤ 8 then (hexDigits 0 cs).map (BitVec.ofNat 32) else none
  | _ => none

/-- The decimal digits of a number below 20. -/
def indexChars (n : Nat) : List Char :=
  if n < 10 then [Char.ofNat ('0'.toNat + n)] else ['1', Char.ofNat ('0'.toNat + (n - 10))]

/-- The register names of R95 with their word addresses. -/
def registerNames : List (List Char × PortAddr) :=
  (['C', 'T', 'R', 'L'], ctrlAddr) :: (['S', 'T', 'A', 'T', 'U', 'S'], statusAddr) ::
    ((List.finRange 8).map fun j => (['D', 'I', 'G', 'E', 'S', 'T'] ++ indexChars j.val, digestAddr j)) ++
    ((List.finRange 16).map fun i => (['M', 'S', 'G'] ++ indexChars i.val, msgAddr i))

/-- `<reg>`: a name, or a raw word address `@0xNN` from 0x00 to 0x1F (R95). -/
def parseReg : List Char → Option PortAddr
  | '@' :: '0' :: 'x' :: [c1, c0] =>
    match hexDigits 0 [c1, c0] with
    | some n => if n < 32 then some (BitVec.ofNat 5 n) else none
    | none => none
  | name => (registerNames.find? fun r => r.1 == name).map (·.2)

/-- `w0, ..., wn`: the values of a list with commas between them. -/
def parseValues : List (List Char) → Option (List Word)
  | [] => none
  | [v] => (parseValue v).map ([·])
  | v :: [','] :: rest =>
    match parseValue v, parseValues rest with
    | some w, some ws => some (w :: ws)
    | _, _ => none
  | _ => none

/-- The operands of LOADBLK: exactly sixteen values. -/
def parseBlock (tokens : List (List Char)) : Option Block :=
  match parseValues tokens with
  | some ws => if h : ws.length = 16 then some ⟨ws.toArray, by simpa using h⟩ else none
  | none => none

/-- A line's tokens as a script line (R95, R96). -/
def parseTokens : List (List Char) → Option ScriptLine
  | [['r', 'd'], r] => (parseReg r).map .rd
  | [['w', 'r'], r, [','], v] =>
    match parseReg r, parseValue v with
    | some addr, some w => some (.wr addr w)
    | _, _ => none
  | [['N', 'O', 'P']] => some .nop
  | [['I', 'N', 'I', 'T']] => some .init
  | [['B', 'L', 'O', 'C', 'K']] => some .block
  | [['F', 'I', 'N', 'A', 'L']] => some .final
  | [['P', 'O', 'L', 'L']] => some .poll
  | [['R', 'D', 'D', 'I', 'G', 'E', 'S', 'T']] => some .rddigest
  | ['L', 'O', 'A', 'D', 'B', 'L', 'K'] :: operands => (parseBlock operands).map .loadblk
  | _ => none

/-- The script lines of a list of text lines; a line with nothing but blanks and a comment holds none. -/
def parseLines : List (List Char) → Option (List ScriptLine)
  | [] => some []
  | l :: ls =>
    match lineTokens l with
    | [] => parseLines ls
    | tokens =>
      match parseTokens tokens, parseLines ls with
      | some line, some lines => some (line :: lines)
      | _, _ => none

/-- A script's text (R95), or none where a line is not of the form. -/
def parseScript (text : List Char) : Option (List ScriptLine) := parseLines (splitAtSep (· = '\n') text)

end Sys2Proof.Machine
end

