-- ==== Sys2Proof/Machine/Preprocessor.lean ====
section
/-! DEFINITION. The host's functions (spec/41_preprocessor_host.md): padding, block splitting, word packing, the
InputTooLarge failure, the driver HashOnCore, and the reference function SHA256 (44_accumulator_sequencer.md R194).
They are the host's and not hardware of the block, so no step uses them. A message is a list of bytes (log 17).
Padding, blocks and SHA256 are defined by the spec for 8·n < 2^64 only; beyond that the values of the total functions
here are DESIGN CHOICE and mean nothing (log 26), and `preprocess` and `hashActions` fail with InputTooLarge. -/

namespace Sys2Proof.Machine

/-- How the host's driver fails. -/
inductive HostFailure where
  /-- `InputTooLarge` (R117): the message's bit length does not fit in 64 bits. -/
  | inputTooLarge
  /-- The STATUS word read after FINAL has bit 3 set (R118). -/
  | errorRecorded
  deriving DecidableEq, Repr

/-- The bit length `L = 8·n` (R111). -/
def bitLength (m : List Byte) : Nat := 8 * m.length

/-- The number of zero bytes, the least k with (n + 1 + k) mod 64 = 56 (R112). -/
def padZeros (n : Nat) : Nat := (119 - n % 64) % 64

/-- `be64(L)`: 8 bytes, most significant first (R112). -/
def be64 (L : BitVec 64) : List Byte :=
  (List.range 8).map fun i => L.extractLsb' (56 - 8 * i) 8

/-- `Pad(m)` (R112), for `bitLength m < 2^64`. R112 defines it for no longer message: there the value, with the length
field modulo 2^64, is DESIGN CHOICE and means nothing (log 26); the host fails instead (R117). -/
def pad (m : List Byte) : List Byte :=
  m ++ [0x80] ++ List.replicate (padZeros m.length) 0x00 ++ be64 (BitVec.ofNat 64 (bitLength m))

/-- N, the number of blocks of a message of n bytes (R114), for 8·n < 2^64 as `pad` (log 26). -/
def blockCount (n : Nat) : Nat := (n + 8) / 64 + 1

/-- Byte k of a padded message; past its end 0, which no block of a padded message takes (log 26). -/
def byteAt (p : List Byte) (k : Nat) : Byte := p.getD k 0x00

/-- `B_b`: the sixteen words of bytes 64b to 64b+63, big-endian (R115). -/
def packBlock (p : List Byte) (b : Nat) : Block :=
  Vector.ofFn fun i : Fin 16 =>
    be32 (byteAt p (64 * b + 4 * i.val)) (byteAt p (64 * b + 4 * i.val + 1))
      (byteAt p (64 * b + 4 * i.val + 2)) (byteAt p (64 * b + 4 * i.val + 3))

/-- The blocks of a message, in message order (R115, R116), for `bitLength m < 2^64` as `pad` (log 26). -/
def messageBlocks (m : List Byte) : List Block :=
  (List.range (blockCount m.length)).map (packBlock (pad m))

/-- The preprocessor: the blocks, or InputTooLarge (R110, R117). -/
def preprocess (m : List Byte) : Except HostFailure (List Block) :=
  if 2 ^ 64 ≤ bitLength m then .error .inputTooLarge else .ok (messageBlocks m)

/-- The accumulator after a list of blocks: the left fold of the per-block update from IV (R194). -/
def hashBlocks (Bs : List Block) : HashWords := Bs.foldl blockUpdate romIV

/-- `SHA256(m)`, 32 bytes (R194), for `bitLength m < 2^64`; R194 defines it for no longer message, and the value there
is DESIGN CHOICE and means nothing, as `pad`'s (log 26). -/
def sha256 (m : List Byte) : Vector Byte 32 := serialize (hashBlocks (messageBlocks m))

/-- The driver's lines for one block: LOADBLK, POLL, BLOCK (R118). -/
def blockLines (B : Block) : List ScriptLine := [.loadblk B, .poll, .block]

/-- The driver's lines up to its STATUS check, for a list of blocks (R118): INIT, each block's lines, POLL, FINAL. -/
def driverLines (Bs : List Block) : List ScriptLine :=
  [.init] ++ Bs.flatMap blockLines ++ [.poll, .final]

/-- The driver's actions for a list of blocks (R118): its lines, the STATUS check, and RDDIGEST, whose eight reads the
check leaves out when an error was recorded. -/
def driverActions (Bs : List Block) : List HostAction :=
  expandScript (driverLines Bs) ++ [.statusCheck 8] ++ expandLine .rddigest

/-- The actions `HashOnCore(m)` issues, or the failure with which it issues none (R117, R118). -/
def hashActions (m : List Byte) : Except HostFailure (List HostAction) :=
  match preprocess m with
  | .ok Bs => .ok (driverActions Bs)
  | .error e => .error e

/-- The words left after one POLL's: it reads until a word has bit 0 clear (30_encoding.md R96). -/
def afterPoll : List Word → Option (List Word)
  | [] => none
  | w :: ws => if w.getLsbD 0 then afterPoll ws else some ws

/-- The words left after n POLLs'. -/
def afterPolls : Nat → List Word → Option (List Word)
  | 0, ws => some ws
  | n + 1, ws =>
    match afterPoll ws with
    | some rest => afterPolls n rest
    | none => none

/-- What `HashOnCore(m)` returns, from all the words it read, in order (R118): those of one POLL a block and one more,
then STATUS; with bit 3 of STATUS set it fails and has read nothing further, else eight digest words follow. Any other
list of words is not that of a finished run. -/
def hashResult (m : List Byte) (words : List Word) : Option (Except HostFailure (Vector Byte 32)) :=
  match afterPolls (blockCount m.length + 1) words with
  | some [status] => if status.getLsbD 3 then some (.error .errorRecorded) else none
  | some [status, d0, d1, d2, d3, d4, d5, d6, d7] =>
    if status.getLsbD 3 then none else some (.ok (serialize #v[d0, d1, d2, d3, d4, d5, d6, d7]))
  | _ => none

end Sys2Proof.Machine
end

