-- ==== Sys2Proof/Safety.lean ====
section
/-! DEFINITION. What counts as a safe run of SHA256-CORE, in the terms the statements use. -/

namespace Sys2Proof.Machine

/-! ## Invariants -/

/-- The six invariants of 10_state.md R31. -/
abbrev Inv (s : State) : Prop :=
  (s.busy = true → s.phase = .accum) ∧
  (s.phase = .final → s.busy = false) ∧
  (s.busy = false → s.t = 0) ∧
  s.t.toNat ≤ 64 ∧
  (s.err = false → s.errcode = 0) ∧
  s.errcode.toNat ≤ 5

/-- A recorded error is remembered by the history flag (60_exceptions.md R247). -/
abbrev HistoryInv (s : State) : Prop := s.err = true → s.everErr = true

/-- A host script's run has ended: the script is issued and no engine step is enabled (70_reset_and_hazards.md
R288). -/
abbrev RunEnded (s : State) : Prop := s.script = [] ∧ s.busy = false

/-! ## Commands -/

/-- The five kinds of CTRL write (44_accumulator_sequencer.md R180). -/
inductive Command where
  /-- NOP. -/
  | nop
  /-- INIT. -/
  | init
  /-- BLOCK. -/
  | block
  /-- FINAL. -/
  | final
  /-- CTRL_ILLEGAL. -/
  | illegal
  deriving DecidableEq, Repr

/-- The acceptance table (R181): none where the command is accepted, else the error it is rejected with. The
first column, busy = 1, is read whatever the phase. -/
def acceptance : Command → Bool → Phase → Option CmdError
  | .nop, _, _ => none
  | .init, true, _ => some .busy
  | .init, false, _ => none
  | .block, true, _ => some .busy
  | .block, false, .idle => none
  | .block, false, .accum => none
  | .block, false, .final => some .sequence
  | .final, true, _ => some .busy
  | .final, false, .idle => some .sequence
  | .final, false, .accum => none
  | .final, false, .final => some .sequence
  | .illegal, _, _ => some .illegalCmd

/-- The operation a command word names, as a command. -/
def commandOf : Instr → Option Command
  | .nop => some .nop
  | .init => some .init
  | .block => some .block
  | .final => some .final
  | .ctrlIllegal _ => some .illegal
  | .rdCtrl => none
  | .rdStatus => none
  | .wrStatus _ => none
  | .rdRsv _ => none
  | .wrRsv _ _ => none
  | .rdDigest _ => none
  | .wrDigest _ _ => none
  | .rdMsg _ => none
  | .wrMsg _ _ => none
  | .round _ => none
  | .fold => none

/-- The error an operation is rejected with in a state, or none (60_exceptions.md R241): the acceptance table for
a command, WRITE_RO and UNMAPPED for the writes that take none. -/
def rejection (i : Instr) (s : State) : Option CmdError :=
  match i with
  | .wrStatus _ => some .writeRo
  | .wrDigest _ _ => some .writeRo
  | .wrRsv _ _ => some .unmapped
  | .nop => acceptance .nop s.busy s.phase
  | .init => acceptance .init s.busy s.phase
  | .block => acceptance .block s.busy s.phase
  | .final => acceptance .final s.busy s.phase
  | .ctrlIllegal _ => acceptance .illegal s.busy s.phase
  | .rdCtrl => none
  | .rdStatus => none
  | .rdRsv _ => none
  | .rdDigest _ => none
  | .rdMsg _ => none
  | .wrMsg _ _ => none
  | .round _ => none
  | .fold => none

/-- The micro-step conditions (43_compressor.md R159, 44_accumulator_sequencer.md R182). A host transaction is
enabled in every state (70_reset_and_hazards.md R289). -/
abbrev Enabled (i : Instr) (s : State) : Prop :=
  match i with
  | .round t => s.busy = true ∧ s.t.toNat = t.val
  | .fold => s.busy = true ∧ s.t = 64
  | .nop => True
  | .init => True
  | .block => True
  | .final => True
  | .ctrlIllegal _ => True
  | .rdCtrl => True
  | .rdStatus => True
  | .wrStatus _ => True
  | .rdRsv _ => True
  | .wrRsv _ _ => True
  | .rdDigest _ => True
  | .wrDigest _ _ => True
  | .rdMsg _ => True
  | .wrMsg _ _ => True

/-- A state in which an error with the given code was recorded, as R241 and 10_state.md R30 describe it: the
record keeps the first code, and the history flag of R247 is set. Every other field is that of `s`. -/
abbrev withError (code : BitVec 4) (s : State) : State :=
  { s with err := true, errcode := if s.err then s.errcode else code, everErr := true }

/-! ## The sequencer's transition relation -/

/-- The sequencer part of a state: (busy, phase, t) (R189). -/
abbrev sequencer (s : State) : Bool × Phase × BitVec 7 := (s.busy, s.phase, s.t)

/-- The arrows of R189, between two values of (busy, phase, t), each with the operation it comes from; none
stands for RESET. -/
inductive Arrow : Option Instr → Bool × Phase × BitVec 7 → Bool × Phase × BitVec 7 → Prop where
  /-- reset: any to (0, IDLE, 0). -/
  | reset (q : Bool × Phase × BitVec 7) : Arrow none q (false, .idle, 0)
  /-- INIT accepted: (0, any, 0) to (0, IDLE, 0). -/
  | init (p : Phase) : Arrow (some .init) (false, p, 0) (false, .idle, 0)
  /-- BLOCK accepted: (0, IDLE or ACCUM, 0) to (1, ACCUM, 0). -/
  | block (p : Phase) (h : p = .idle ∨ p = .accum) : Arrow (some .block) (false, p, 0) (true, .accum, 0)
  /-- ROUND(t): (1, ACCUM, t) to (1, ACCUM, t+1), for t ≤ 63. -/
  | round (k : Fin 64) (t : BitVec 7) (h : t.toNat = k.val) :
      Arrow (some (.round k)) (true, .accum, t) (true, .accum, t + 1)
  /-- FOLD: (1, ACCUM, 64) to (0, ACCUM, 0). -/
  | fold : Arrow (some .fold) (true, .accum, 64) (false, .accum, 0)
  /-- FINAL accepted: (0, ACCUM, 0) to (0, FINAL, 0). -/
  | final : Arrow (some .final) (false, .accum, 0) (false, .final, 0)

/-- The operations R189 names as having an arrow; NOP and every register access have none. -/
def movesSequencer : Instr → Bool
  | .init => true
  | .block => true
  | .final => true
  | .round _ => true
  | .fold => true
  | .nop => false
  | .ctrlIllegal _ => false
  | .rdCtrl => false
  | .rdStatus => false
  | .wrStatus _ => false
  | .rdRsv _ => false
  | .wrRsv _ _ => false
  | .rdDigest _ => false
  | .wrDigest _ _ => false
  | .rdMsg _ => false
  | .wrMsg _ _ => false

/-- The engine's micro-steps; every other operation is a host transaction (30_encoding.md R87). -/
def isMicroStep : Instr → Bool
  | .round _ => true
  | .fold => true
  | .nop => false
  | .init => false
  | .block => false
  | .final => false
  | .ctrlIllegal _ => false
  | .rdCtrl => false
  | .rdStatus => false
  | .wrStatus _ => false
  | .rdRsv _ => false
  | .wrRsv _ _ => false
  | .rdDigest _ => false
  | .wrDigest _ _ => false
  | .rdMsg _ => false
  | .wrMsg _ _ => false

/-! ## A block in flight -/

/-- Schedule words that ROUND will still read or has written in this block: the sixteen words of the block, and
those below the round counter (10_state.md R23). -/
abbrev Live (t : BitVec 7) (i : Fin 64) : Prop := i.val < 16 ∨ i.val < t.toNat

/-- A compression of block `B0` from accumulator `H0` is in progress and has done `t` rounds: the working
registers are those of the first t rounds of `Compress(H0, Expand(B0))`, and the schedule words written so far are
Expand(B0)'s (43_compressor.md R163). -/
def InFlight (H0 : HashWords) (B0 : Block) (s : State) : Prop :=
  s.busy = true ∧ s.phase = .accum ∧ s.H = H0 ∧
  (∃ h : s.t.toNat ≤ 64, s.work = compressTo s.t.toNat h (.ofWords H0) (expand B0)) ∧
  ∀ i : Fin 64, Live s.t i → s.W[i] = (expand B0)[i]

/-- Two states that differ at most in what no transaction can show: W and a..h, and, while a block is being
compressed, only in schedule words that are not live (10_state.md R38, R40). -/
def VisiblyEqual (s s' : State) : Prop :=
  { s' with W := s.W, work := s.work } = s ∧
  (s.busy = true → s'.work = s.work ∧ ∀ i : Fin 64, Live s.t i → s'.W[i] = s.W[i])

/-- Two outcomes that agree: both a next state and related, or the same stop. -/
def SameOutcome (R : State → State → Prop) :
    Host.Outcome State Fault Refusal → Host.Outcome State Fault Refusal → Prop
  | .next s, .next s' => R s s'
  | .fault r, .fault r' => r = r'
  | .refused r, .refused r' => r = r'
  | _, _ => False

/-- No RESET is the next transition. -/
def ResetNotNext (s : State) : Prop := ∀ u, fetch s ≠ .reset u

end Sys2Proof.Machine
end

