-- ==== Sys2Proof/Certificates/Slice0/Obligations.lean ====
section
/-! DEFINITION. The statements for the provers. Each docstring names the rules of spec/ the statement rests on. -/

open Sys2Proof Sys2Proof.Machine

/-! ## Encodings -/

/-- 30_encoding.md R97: the encoding examples, as the actions of script lines and as what they decode to. -/
def Obligations.EncodingExamplesOfTheSpec : Prop :=
  writeReg ctrlAddr 0x1 = .transaction 0x2000000001 ∧
  writeReg (msgAddr 0) 0x61626380 = .transaction 0x3061626380 ∧
  writeReg (msgAddr 15) 0x00000018 = .transaction 0x3F00000018 ∧
  readReg statusAddr = .transaction 0x0100000000 ∧
  readReg (digestAddr 7) = .transaction 0x0F00000000 ∧
  writeReg 0x05 0x1 = .transaction 0x2500000001 ∧
  decode (.ht 0x2500000001) = .ok (.wrRsv 5 0x1) ∧
  writeReg ctrlAddr 0x8 = .transaction 0x2000000008 ∧
  decode (.ht 0x2000000008) = .ok (.ctrlIllegal 0x8)

/-- The decoding examples of 95_test_vectors.md section 9, at least one word of each row of the opcode map (30_encoding.md R87). -/
def Obligations.DecodingExamplesOfTheSpec : Prop :=
  decode (.ht 0x2000000000) = .ok .nop ∧
  decode (.ht 0x2000000001) = .ok .init ∧
  decode (.ht 0x2000000002) = .ok .block ∧
  decode (.ht 0x2000000003) = .ok .final ∧
  decode (.ht 0x2080000001) = .ok (.ctrlIllegal 0x80000001) ∧
  decode (.ht 0x00DEADBEEF) = .ok .rdCtrl ∧
  decode (.ht 0x0100000000) = .ok .rdStatus ∧
  decode (.ht 0x2100000000) = .ok (.wrStatus 0) ∧
  decode (.ht 0x0200000000) = .ok (.rdRsv 2) ∧
  decode (.ht 0x2500000001) = .ok (.wrRsv 5 1) ∧
  decode (.ht 0x0F00000000) = .ok (.rdDigest 7) ∧
  decode (.ht 0x2B12345678) = .ok (.wrDigest 3 0x12345678) ∧
  decode (.ht 0x1F00000000) = .ok (.rdMsg 15) ∧
  decode (.ht 0x3061626380) = .ok (.wrMsg 0 0x61626380) ∧
  decode (.sq 0x85) = .ok (.round 5) ∧
  decode (.sq 0xBF) = .ok (.round 63) ∧
  decode (.sq 0xC0) = .ok .fold ∧
  decode (.sq 0x00) = .error .noEngineStep ∧
  decode (.sq 0xC1) = .error .unreachableStep

/-- Decoding the words of any well-formed operation gives it back, with every operand (30_encoding.md R80, R85, R86, R87). -/
def Obligations.DecodeOfEncodeIsTheInstruction : Prop :=
  ∀ i : Instr, i.wf = true → decode (encode i) = .ok i

/-- What either decoder reads is well formed, so that the check of `Instr.wf` shuts no word out (30_encoding.md R86). -/
def Obligations.DecodedInstructionsAreWellFormed : Prop :=
  (∀ T : Transaction, (decodeHT T).wf = true) ∧
  (∀ (w : StepWord) (i : Instr), decodeSQ w = .ok i → i.wf = true)

/-- R81: a read's data field is ignored, two reads that differ only there are the same transaction, and the encoder
writes it as 0. R80, R86: a write's encoding is the transaction itself, since the model keeps in the instruction also
the operands it ignores (log 25, a choice of the model). -/
def Obligations.ReadDataFieldIsIgnored : Prop :=
  (∀ T T' : Transaction, htWe T = false → htWe T' = false → htAddr T = htAddr T' → decodeHT T = decodeHT T') ∧
  (∀ T : Transaction, htWe T = false → encode (decodeHT T) = .ht (htWord false (htAddr T) 0)) ∧
  (∀ T : Transaction, htWe T = true → encode (decodeHT T) = .ht T)

/-- R86, R87: every 38-bit T decodes to the operation of the first row of the opcode map, in table order, whose
`T AND mask = match`, and there is always such a row. -/
def Obligations.FirstMatchingRowDecodes : Prop :=
  ∀ T : Transaction, (firstRow T).map (·.mnemonic) = some (decodeHT T).mnemonic

/-- R85: `SQ = busy·2^7 + t`, and which micro-step a sequencer word enables. -/
def Obligations.SequencerWordEnablesMicroStep : Prop :=
  (∀ (busy : Bool) (t : BitVec 7), (sqWord busy t).toNat = busy.toNat * 2 ^ 7 + t.toNat) ∧
  (∀ (t : BitVec 7) (k : Fin 64), t.toNat = k.val → decodeSQ (sqWord true t) = .ok (.round k)) ∧
  decodeSQ (sqWord true 64) = .ok .fold ∧
  (∀ (t : BitVec 7) (i : Instr), decodeSQ (sqWord false t) ≠ .ok i)

/-- R80: the transaction's value is `T = we·2^37 + addr·2^32 + data`, and the three fields of a transaction are those
it was made of. -/
def Obligations.TransactionValue : Prop :=
  ∀ (we : Bool) (addr : PortAddr) (data : Word),
    (htWord we addr data).toNat = we.toNat * 2 ^ 37 + addr.toNat * 2 ^ 32 + data.toNat ∧
    htWe (htWord we addr data) = we ∧ htAddr (htWord we addr data) = addr ∧ htData (htWord we addr data) = data

/-- R96: the expansion of each pseudo-instruction but POLL, as the words of its transactions. POLL is one action of the
model's own (log 7), whose reads PollReadsStatusUntilIdle states. -/
def Obligations.PseudoInstructionExpansions : Prop :=
  expandLine .nop = [.transaction 0x2000000000] ∧
  expandLine .init = [.transaction 0x2000000001] ∧
  expandLine .block = [.transaction 0x2000000002] ∧
  expandLine .final = [.transaction 0x2000000003] ∧
  expandLine .poll = [.poll []] ∧
  (∀ words : Block, expandLine (.loadblk words) =
    (List.finRange 16).map fun i =>
      .transaction (BitVec.ofNat 38 (0x3000000000 + i.val * 2 ^ 32 + words[i].toNat))) ∧
  expandLine .rddigest =
    (List.finRange 8).map fun j => .transaction (BitVec.ofNat 38 (0x0800000000 + j.val * 2 ^ 32))

/-! ## Steps -/

/-- A step runs the decoded host transaction: with no micro-step to come first, or with none enabled, the step is the
meaning of the transaction's operation, the transaction taken off the script (20_memory.md R65, R66; log 6). -/
def Obligations.StepRunsTheHostTransaction : Prop :=
  ∀ (s : State) (g : Nat) (T : Transaction) (rest : List HostEntry),
    s.script = ⟨g, .transaction T⟩ :: rest → (g = 0 ∨ (s.busy = false ∧ s.t = 0)) →
    step s = exec (decodeHT T) { s with script := rest }

/-- A step runs the decoded micro-step: with a gap before the host's next action, or with nothing left in the script,
the step is the meaning of the operation the sequencer word decodes to, the gap one smaller (20_memory.md R66; log 6). -/
def Obligations.StepRunsTheMicroStep : Prop :=
  ∀ (s : State) (i : Instr), decode (.sq (sqWord s.busy s.t)) = .ok i →
    (s.script = [] → step s = exec i s) ∧
    (∀ (g : Nat) (a : HostAction) (rest : List HostEntry), s.script = ⟨g + 1, a⟩ :: rest →
      step s = exec i { s with script := ⟨g, a⟩ :: rest })

/-- POLL (30_encoding.md R96): when it is the host's turn, with no micro-step to come first or with none enabled, the
step is one STATUS read; with bit 0 of the value clear the POLL is done, else it
reads again. When its list of gaps is used up the engine first has the 65 micro-steps of a block (log 7, a choice of the
model). -/
def Obligations.PollReadsStatusUntilIdle : Prop :=
  ∀ (s : State) (gap : Nat) (gaps : List Nat) (rest : List HostEntry), s.script = ⟨gap, .poll gaps⟩ :: rest →
    (gap = 0 ∨ (s.busy = false ∧ s.t = 0)) →
    (s.busy = false → step s = .next { s with script := rest, replies := s.replies ++ [statusWord s] }) ∧
    (∀ (g : Nat) (gs : List Nat), s.busy = true → gaps = g :: gs →
      step s = .next { s with script := ⟨g, .poll gs⟩ :: rest, replies := s.replies ++ [statusWord s] }) ∧
    (s.busy = true → gaps = [] →
      step s = .next { s with script := ⟨65, .poll []⟩ :: rest, replies := s.replies ++ [statusWord s] })

/-- R257: with busy = 0 and no host action to come, the block does nothing and keeps all state (log 8). -/
def Obligations.IdleBlockKeepsItsState : Prop :=
  ∀ s : State, s.script = [] → s.busy = false → s.t = 0 → step s = .next s

/-- The sequencer values that R86 calls unreachable stop the engine's turn with a fault, as 93_implementation_defined.md
F7 asks (log 10). -/
def Obligations.UnreachableSequencerValueFaults : Prop :=
  ∀ s : State, (s.busy = true ∧ 65 ≤ s.t.toNat) ∨ (s.busy = false ∧ s.t ≠ 0) →
    (s.script = [] ∨ ∃ (g : Nat) (a : HostAction) (rest : List HostEntry), s.script = ⟨g + 1, a⟩ :: rest) →
    step s = .fault .unreachableSequencer

/-! ## Reset -/

/-- R39: the value of every piece of state right after reset for which the spec gives one. -/
def Obligations.StateRightAfterReset : Prop :=
  State.reset.H = #v[0x6a09e667, 0xbb67ae85, 0x3c6ef372, 0xa54ff53a, 0x510e527f, 0x9b05688c, 0x1f83d9ab, 0x5be0cd19] ∧
  (∀ i : Fin 16, State.reset.M[i] = 0x00000000) ∧
  State.reset.t = 0 ∧ State.reset.busy = false ∧ State.reset.phase = .idle ∧
  State.reset.err = false ∧ State.reset.errcode = 0 ∧ statusWord State.reset = 0x00000000

/-- R270: RESET is one atomic transition allowed in any state, busy included, and what it writes, when it is the host's
turn, with no micro-step to come first or with none enabled; the host's script goes
on, and the model's history flag stays (R247). Of W and a..h nothing is said. -/
def Obligations.ResetActionRestoresResetValues : Prop :=
  ∀ (s : State) (g : Nat) (rest : List HostEntry), s.script = ⟨g, .reset⟩ :: rest →
    (g = 0 ∨ (s.busy = false ∧ s.t = 0)) →
    ∃ s', step s = .next s' ∧ s'.H = romIV ∧ (∀ i : Fin 16, s'.M[i] = 0x00000000) ∧
      s'.t = 0 ∧ s'.busy = false ∧ s'.phase = .idle ∧ s'.err = false ∧ s'.errcode = 0 ∧
      s'.script = rest ∧ s'.replies = s.replies ∧ s'.everErr = s.everErr

/-- R271: after RESET the block is in the state an accepted INIT would leave, with M cleared, and an INIT then changes
nothing, so a host may leave it out. -/
def Obligations.InitAfterResetChangesNothing : Prop :=
  (∀ s : State, exec .init (resetBlock s) = .next (resetBlock s)) ∧
  (∀ s s' : State, s.busy = false → exec .init s = .next s' →
    (resetBlock s).H = s'.H ∧ (resetBlock s).t = s'.t ∧ (resetBlock s).busy = s'.busy ∧
    (resetBlock s).phase = s'.phase ∧ (resetBlock s).err = s'.err ∧ (resetBlock s).errcode = s'.errcode ∧
    s'.M = s.M ∧ ∀ i : Fin 16, (resetBlock s).M[i] = 0x00000000)

/-- The reset state meets the invariants of R31 and the history flag's. -/
def Obligations.ResetStateMeetsTheInvariants : Prop := Inv State.reset ∧ HistoryInv State.reset

/-! ## The error record -/

/-- R241: `raise CmdError(code)` records the first error only, with the codes of the table, and changes nothing else;
the model's history flag is set too (R247). -/
def Obligations.RaiseRecordsTheFirstError : Prop :=
  (∀ (c : CmdError) (s : State), s.err = false →
    raise c s = { s with err := true, errcode := errorCode c, everErr := true }) ∧
  (∀ (c : CmdError) (s : State), s.err = true → raise c s = { s with everErr := true }) ∧
  errorCode .illegalCmd = 1 ∧ errorCode .busy = 2 ∧ errorCode .sequence = 3 ∧
  errorCode .writeRo = 4 ∧ errorCode .unmapped = 5

/-- R242: an operation that raises an error has no effect except the error record, and one that raises none leaves
no new error. -/
def Obligations.ErrorsArePrecise : Prop :=
  (∀ (i : Instr) (s : State) (c : CmdError), rejection i s = some c →
    exec i s = .next (withError (errorCode c) s)) ∧
  (∀ (i : Instr) (s s' : State), rejection i s = none → exec i s = .next s' →
    s'.everErr = s.everErr ∧ (s'.err = true → s.err = true ∧ s'.errcode = s.errcode))

/-- R247: the history flag is set by every raise of CmdError, and nothing clears it, RESET and INIT included. -/
def Obligations.HistoryFlagIsNeverCleared : Prop :=
  (∀ (c : CmdError) (s : State), (raise c s).everErr = true) ∧
  (∀ s s' : State, step s = .next s' → s.everErr = true → s'.everErr = true) ∧
  (∀ s s' : State, step s = .next s' → HistoryInv s → HistoryInv s')

/-! ## Commands -/

/-- R184: NOP has no effect, in every state. -/
def Obligations.NopHasNoEffect : Prop :=
  decodeHT 0x2000000000 = .nop ∧ decodeHT 0x2000000008 = .ctrlIllegal 0x00000008 ∧
  (∀ s : State, exec .nop s = .next s) ∧
  (∀ s : State, s.busy = true → s.t = 5 → s.phase = .accum → s.err = false → s.errcode = 0 →
    statusWord s = 0x00000503)

/-- R185: INIT loads the initial hash values and clears the error record, or is rejected with BUSY. -/
def Obligations.InitStartsAnInvocation : Prop :=
  decodeHT 0x2000000001 = .init ∧
  (∀ s : State, s.busy = false →
    exec .init s = .next { s with H := romIV, phase := .idle, t := 0, err := false, errcode := 0 }) ∧
  (∀ s : State, s.busy = true → exec .init s = .next (withError 2 s))

/-- R186: BLOCK copies M into W[0..15] and H into a..h and starts the rounds, or is rejected. -/
def Obligations.BlockStartsACompression : Prop :=
  decodeHT 0x2000000002 = .block ∧
  (∀ s : State, s.busy = false → s.phase ≠ .final →
    ∃ W' : Schedule, (∀ i : Fin 16, W'[i.val] = s.M[i]) ∧ (∀ i : Fin 64, 16 ≤ i.val → W'[i] = s.W[i]) ∧
      exec .block s = .next { s with
        W := W'
        work := ⟨s.H[0], s.H[1], s.H[2], s.H[3], s.H[4], s.H[5], s.H[6], s.H[7]⟩
        t := 0, busy := true, phase := .accum }) ∧
  (∀ s : State, s.busy = true → exec .block s = .next (withError 2 s)) ∧
  (∀ s : State, s.busy = false → s.phase = .final → exec .block s = .next (withError 3 s))

/-- R187: FINAL makes the digest readable, or is rejected. -/
def Obligations.FinalEndsTheInvocation : Prop :=
  decodeHT 0x2000000003 = .final ∧
  (∀ s : State, s.busy = false → s.phase = .accum → exec .final s = .next { s with phase := .final }) ∧
  (∀ s : State, s.busy = true → exec .final s = .next (withError 2 s)) ∧
  (∀ s : State, s.busy = false → s.phase ≠ .accum → exec .final s = .next (withError 3 s))

/-- R88: every CTRL write that is not a legal command word, CMD 4 to 7 or any RSV bit set, decodes to CTRL_ILLEGAL and
does nothing but record ILLEGAL_CMD, in every state. -/
def Obligations.IllegalCommandWordsAreRejected : Prop :=
  ∀ (data : Word) (s : State), data.extractLsb' 3 29 ≠ 0 ∨ 4 ≤ (data.extractLsb' 0 3).toNat →
    decodeHT (htWord true 0x00 data) = .ctrlIllegal data ∧
    exec (.ctrlIllegal data) s = .next (withError 1 s)

/-- R181: the acceptance table. A rejected command records the table's error and changes nothing else; an accepted one
records none. -/
def Obligations.CommandsFollowTheAcceptanceTable : Prop :=
  ∀ (i : Instr) (c : Command) (s : State), commandOf i = some c →
    (∀ e : CmdError, acceptance c s.busy s.phase = some e → exec i s = .next (withError (errorCode e) s)) ∧
    (acceptance c s.busy s.phase = none →
      ∃ s', exec i s = .next s' ∧ s'.everErr = s.everErr ∧ (s'.err = true → s.err = true))

/-! ## The register port -/

/-- R55: the register map, both columns, by word address. A read returns its word and changes nothing else; a write to
CTRL is a command. -/
def Obligations.PortFollowsTheRegisterMap : Prop :=
  (∀ (T : Transaction) (s : State), htWe T = false →
    ∃ v : Word, exec (decodeHT T) s = .next { s with replies := s.replies ++ [v] } ∧
      ((htAddr T).toNat = 0x00 → v = 0x00000000) ∧
      ((htAddr T).toNat = 0x01 → v = statusWord s) ∧
      (0x02 ≤ (htAddr T).toNat ∧ (htAddr T).toNat ≤ 0x07 → v = 0x00000000) ∧
      (∀ j : Fin 8, (htAddr T).toNat = 0x08 + j.val → v = if s.phase = .final then s.H[j] else 0x00000000) ∧
      (∀ n : Fin 16, (htAddr T).toNat = 0x10 + n.val → v = s.M[n])) ∧
  (∀ (T : Transaction) (s : State), htWe T = true →
    ((htAddr T).toNat = 0x00 → decodeHT T = decodeCommand (htData T)) ∧
    ((htAddr T).toNat = 0x01 → exec (decodeHT T) s = .next (withError 4 s)) ∧
    (0x02 ≤ (htAddr T).toNat ∧ (htAddr T).toNat ≤ 0x07 → exec (decodeHT T) s = .next (withError 5 s)) ∧
    (0x08 ≤ (htAddr T).toNat ∧ (htAddr T).toNat ≤ 0x0F → exec (decodeHT T) s = .next (withError 4 s)) ∧
    (∀ n : Fin 16, (htAddr T).toNat = 0x10 + n.val →
      exec (decodeHT T) s = .next { s with M := s.M.set n.val (htData T) }))

/-- R210, R211, R214, R217, R218: the word of each read, and what it returns, in every state; nothing but the host's
replies changes. -/
def Obligations.ReadsReturnAndChangeNothing : Prop :=
  (∀ data : Word,
    decodeHT (htWord false 0x00 data) = .rdCtrl ∧ decodeHT (htWord false 0x01 data) = .rdStatus ∧
    (∀ a : Fin 8, 2 ≤ a.val → decodeHT (htWord false (BitVec.ofNat 5 a.val) data) = .rdRsv a) ∧
    (∀ j : Fin 8, decodeHT (htWord false (BitVec.ofNat 5 (0x08 + j.val)) data) = .rdDigest j) ∧
    (∀ n : Fin 16, decodeHT (htWord false (BitVec.ofNat 5 (0x10 + n.val)) data) = .rdMsg n)) ∧
  (∀ s : State,
    exec .rdCtrl s = .next { s with replies := s.replies ++ [0x00000000] } ∧
    exec .rdStatus s = .next { s with replies := s.replies ++ [statusWord s] } ∧
    (∀ a : Fin 8, exec (.rdRsv a) s = .next { s with replies := s.replies ++ [0x00000000] }) ∧
    (∀ j : Fin 8, s.phase = .final → exec (.rdDigest j) s = .next { s with replies := s.replies ++ [s.H[j]] }) ∧
    (∀ j : Fin 8, s.phase ≠ .final → exec (.rdDigest j) s = .next { s with replies := s.replies ++ [0x00000000] }) ∧
    (∀ n : Fin 16, exec (.rdMsg n) s = .next { s with replies := s.replies ++ [s.M[n]] }))

/-- R213, R215, R219: the word of each write to STATUS, DIGESTj or a reserved address; it is ignored in every state and
records WRITE_RO (4) or UNMAPPED (5), whatever the data word. -/
def Obligations.WritesWithoutATargetAreRejected : Prop :=
  ∀ (data : Word) (s : State),
    (decodeHT (htWord true 0x01 data) = .wrStatus data ∧ exec (.wrStatus data) s = .next (withError 4 s)) ∧
    (∀ j : Fin 8, decodeHT (htWord true (BitVec.ofNat 5 (0x08 + j.val)) data) = .wrDigest j data ∧
      exec (.wrDigest j data) s = .next (withError 4 s)) ∧
    (∀ a : Fin 8, (2 ≤ a.val → decodeHT (htWord true (BitVec.ofNat 5 a.val) data) = .wrRsv a data) ∧
      exec (.wrRsv a data) s = .next (withError 5 s))

/-- R216: the word of a MSGi write, which sets M[i], in every state, and changes nothing else. -/
def Obligations.MsgWriteSetsOneWord : Prop :=
  ∀ (n : Fin 16) (v : Word) (s : State),
    decodeHT (htWord true (BitVec.ofNat 5 (0x10 + n.val)) v) = .wrMsg n v ∧
    ∃ M' : Block, exec (.wrMsg n v) s = .next { s with M := M' } ∧ M'[n] = v ∧
      ∀ k : Fin 16, k ≠ n → M'[k] = s.M[k]

/-- R83: the value a STATUS read returns, by its fields; bits [31:15] are zero. -/
def Obligations.StatusWordValue : Prop :=
  ∀ s : State,
    exec .rdStatus s = .next { s with replies := s.replies ++ [statusWord s] } ∧
    (statusWord s).toNat = s.t.toNat * 2 ^ 8 + s.errcode.toNat * 2 ^ 4 + s.err.toNat * 2 ^ 3 +
      (phaseBits s.phase).toNat * 2 ^ 1 + s.busy.toNat ∧
    (statusWord s).extractLsb' 15 17 = 0 ∧
    phaseBits .idle = 0 ∧ phaseBits .accum = 1 ∧ phaseBits .final = 2

/-! ## Word functions and constants -/

/-- R9: bit i of ROTR(x, n) is bit (i + n) mod 32 of x, for 0 < n < 32. -/
def Obligations.RotateMovesEveryBit : Prop :=
  ∀ (x : Word) (n i : Nat), 0 < n → n < 32 → i < 32 →
    (rotr x n).getLsbD i = x.getLsbD ((i + n) % 32)

/-- R10: SHR(x, n) is floor(x / 2^n), and zeros fill bits 31 down to 32-n. -/
def Obligations.ShiftDividesAndFillsWithZeros : Prop :=
  ∀ (x : Word) (n : Nat), 0 < n → n < 32 →
    (shr x n).toNat = x.toNat / 2 ^ n ∧ ∀ i, 32 - n ≤ i → i < 32 → (shr x n).getLsbD i = false

/-- R152, R153: bit by bit, Ch is f where e is 1 and g where e is 0, and Maj is the majority of the three bits. -/
def Obligations.ChooseAndMajorityBitByBit : Prop :=
  (∀ (e f g : Word) (i : Nat), (ch e f g).getLsbD i = if e.getLsbD i then f.getLsbD i else g.getLsbD i) ∧
  (∀ (a b c : Word) (i : Nat),
    (maj a b c).getLsbD i = decide (2 ≤ (a.getLsbD i).toNat + (b.getLsbD i).toNat + (c.getLsbD i).toNat))

/-- R130, R131, R150, R151: bit i of each of the four mixing functions, as the XOR of the three bits its rotations (and
the schedule functions' shift) bring there; all four are linear over XOR; and their values at 0, all ones, the top bit
and 1. -/
def Obligations.ScheduleMixersAreLinear : Prop :=
  (∀ (x : Word) (i : Nat), i < 32 →
    (sigma0 x).getLsbD i = (x.getLsbD ((i + 7) % 32) ^^ x.getLsbD ((i + 18) % 32) ^^ x.getLsbD (i + 3)) ∧
    (sigma1 x).getLsbD i = (x.getLsbD ((i + 17) % 32) ^^ x.getLsbD ((i + 19) % 32) ^^ x.getLsbD (i + 10)) ∧
    (bigSigma0 x).getLsbD i =
      (x.getLsbD ((i + 2) % 32) ^^ x.getLsbD ((i + 13) % 32) ^^ x.getLsbD ((i + 22) % 32)) ∧
    (bigSigma1 x).getLsbD i =
      (x.getLsbD ((i + 6) % 32) ^^ x.getLsbD ((i + 11) % 32) ^^ x.getLsbD ((i + 25) % 32))) ∧
  (∀ x y : Word, sigma0 (x ^^^ y) = sigma0 x ^^^ sigma0 y) ∧
  (∀ x y : Word, sigma1 (x ^^^ y) = sigma1 x ^^^ sigma1 y) ∧
  (∀ x y : Word, bigSigma0 (x ^^^ y) = bigSigma0 x ^^^ bigSigma0 y) ∧
  (∀ x y : Word, bigSigma1 (x ^^^ y) = bigSigma1 x ^^^ bigSigma1 y) ∧
  sigma0 0 = 0x00000000 ∧ sigma0 0xFFFFFFFF = 0x1FFFFFFF ∧ sigma0 0x80000000 = 0x11002000 ∧ sigma0 1 = 0x02004000 ∧
  sigma1 0 = 0x00000000 ∧ sigma1 0xFFFFFFFF = 0x003FFFFF ∧ sigma1 0x80000000 = 0x00205000 ∧ sigma1 1 = 0x0000a000 ∧
  bigSigma0 0 = 0x00000000 ∧ bigSigma0 0xFFFFFFFF = 0xFFFFFFFF ∧ bigSigma0 0x80000000 = 0x20040200 ∧
  bigSigma0 1 = 0x40080400 ∧
  bigSigma1 0 = 0x00000000 ∧ bigSigma1 0xFFFFFFFF = 0xFFFFFFFF ∧ bigSigma1 0x80000000 = 0x02100040 ∧
  bigSigma1 1 = 0x04200080

/-- 20_memory.md R62: K[i] is icbrt(p·2^96) mod 2^32 and IV[j] is isqrt(p·2^64) mod 2^32, for the (i+1)-th and (j+1)-th
prime p; `romPrimes` lists the first 64 primes in order. -/
def Obligations.RomsAreRootsOfPrimes : Prop :=
  romPrimes.length = 64 ∧ romPrimes.Pairwise (· < ·) ∧
  (∀ p : Nat, p ≤ 311 → (p ∈ romPrimes ↔ Nat.Prime p)) ∧
  (∀ i : Fin 64, ∃ r : Nat, r ^ 3 ≤ romPrimes.getD i.val 0 * 2 ^ 96 ∧
    romPrimes.getD i.val 0 * 2 ^ 96 < (r + 1) ^ 3 ∧ (roundConstant i).toNat = r % 2 ^ 32) ∧
  (∀ j : Fin 8, ∃ r : Nat, r ^ 2 ≤ romPrimes.getD j.val 0 * 2 ^ 64 ∧
    romPrimes.getD j.val 0 * 2 ^ 64 < (r + 1) ^ 2 ∧ (initialValue j).toNat = r % 2 ^ 32)

/-! ## The engine -/

/-- R159, R160, R154, R133: what ROUND(t) writes when it is enabled, every right-hand side from the state before it, and
that it writes nothing else. -/
def Obligations.RoundResult : Prop :=
  ∀ (k : Fin 64) (s : State), s.busy = true → s.t.toNat = k.val →
    ∃ W' : Schedule,
      (∀ i : Fin 64, i ≠ k → W'[i] = s.W[i]) ∧
      (k.val < 16 → W'[k] = s.W[k]) ∧
      (16 ≤ k.val → W'[k] = s.W[k.val - 16]'(by omega) + sigma0 (s.W[k.val - 15]'(by omega)) +
        s.W[k.val - 7]'(by omega) + sigma1 (s.W[k.val - 2]'(by omega))) ∧
      ∃ x y : Word,
        x = s.work.h + bigSigma1 s.work.e + ch s.work.e s.work.f s.work.g + roundConstant k + W'[k] ∧
        y = bigSigma0 s.work.a + maj s.work.a s.work.b s.work.c ∧
        exec (.round k) s = .next { s with
          W := W'
          work := ⟨x + y, s.work.a, s.work.b, s.work.c, s.work.d + x, s.work.e, s.work.f, s.work.g⟩
          t := s.t + 1 }

/-- R182: what FOLD writes when it is enabled, each sum modulo 2^32 on its own, and that it writes nothing else. -/
def Obligations.FoldResult : Prop :=
  ∀ s : State, s.busy = true → s.t = 64 →
    exec .fold s = .next { s with
      H := #v[s.H[0] + s.work.a, s.H[1] + s.work.b, s.H[2] + s.work.c, s.H[3] + s.work.d,
              s.H[4] + s.work.e, s.H[5] + s.work.f, s.H[6] + s.work.g, s.H[7] + s.work.h]
      busy := false
      t := 0 }

/-- ROUND and FOLD stop by name in a state that does not enable them, where the spec gives them no effect (log 11). -/
def Obligations.MicroStepsStopWhereNotEnabled : Prop :=
  (∀ (k : Fin 64) (s : State), ¬ (s.busy = true ∧ s.t.toNat = k.val) →
    exec (.round k) s = .refused .microStepNotEnabled) ∧
  (∀ s : State, ¬ (s.busy = true ∧ s.t = 64) → exec .fold s = .refused .microStepNotEnabled)

/-- Every operation runs in every state that enables it: host transactions in all states (R289), ROUND and FOLD under
their conditions (R159, R182). -/
def Obligations.EveryInstructionRunsWhereEnabled : Prop :=
  ∀ (i : Instr) (s : State), Enabled i s → ∃ s', exec i s = .next s'

/-! ## Whole-machine rules -/

/-- R31: the six invariants are kept by every step, from every state that meets them. -/
def Obligations.StepKeepsTheInvariants : Prop :=
  ∀ s s' : State, Inv s → step s = .next s' → Inv s'

/-- R240: no step from a state with the invariants stops. -/
def Obligations.StepNeverStops : Prop :=
  ∀ s : State, Inv s → ∃ s', step s = .next s'

/-- R189: the sequencer's transition relation. An operation moves (busy, phase, t) by its own arrow; every rejected
command, every NOP and every register access leaves it unchanged; RESET goes to (0, IDLE, 0). -/
def Obligations.SequencerFollowsTheTransitionRelation : Prop :=
  (∀ (i : Instr) (s s' : State), Inv s → exec i s = .next s' →
    (rejection i s = none ∧ movesSequencer i = true → Arrow (some i) (sequencer s) (sequencer s')) ∧
    (rejection i s ≠ none ∨ movesSequencer i = false → sequencer s' = sequencer s)) ∧
  (∀ s : State, Arrow none (sequencer s) (sequencer (resetBlock s)))

/-- R21 to R24, R26, R28 to R30: which operations write which register, over all operations. Of the model's own fields:
nothing but a read adds to the host's replies, and no operation touches the script or the draw counter. -/
def Obligations.OnlyNamedOperationsWriteARegister : Prop :=
  ∀ (i : Instr) (s s' : State), exec i s = .next s' →
    (s'.H ≠ s.H → i = .init ∨ i = .fold) ∧
    (s'.work ≠ s.work → i = .block ∨ ∃ k, i = .round k) ∧
    (∀ n : Fin 64, s'.W[n] ≠ s.W[n] → (i = .block ∧ n.val < 16) ∨ (i = .round n ∧ 16 ≤ n.val)) ∧
    (∀ n : Fin 16, s'.M[n] ≠ s.M[n] → ∃ v, i = .wrMsg n v) ∧
    (s'.t ≠ s.t → i = .init ∨ i = .block ∨ i = .fold ∨ ∃ k, i = .round k) ∧
    (s'.busy ≠ s.busy → (i = .block ∧ s'.busy = true) ∨ (i = .fold ∧ s'.busy = false)) ∧
    (s'.phase ≠ s.phase → i = .init ∨ i = .block ∨ i = .final) ∧
    (s.err = true → s'.err = false → i = .init) ∧
    (s'.replies ≠ s.replies → i = .rdCtrl ∨ i = .rdStatus ∨ (∃ a, i = .rdRsv a) ∨ (∃ j, i = .rdDigest j) ∨
      ∃ n, i = .rdMsg n) ∧
    s'.script = s.script ∧ s'.draws = s.draws

/-- R161: no host transaction changes a..h, W, t, H, busy or phase while busy = 1. -/
def Obligations.HostCannotDisturbABlockInFlight : Prop :=
  ∀ (i : Instr) (s s' : State), s.busy = true → isMicroStep i = false → exec i s = .next s' →
    s'.H = s.H ∧ s'.work = s.work ∧ s'.W = s.W ∧ s'.t = s.t ∧ s'.busy = true ∧ s'.phase = s.phase

/-- R38, R40: nothing the host can see depends on W and a..h beyond the words of the block in flight: two states that
differ only there step alike, and differ only there afterwards; in particular the model's choice for W and a..h at reset
(log 1, log 2) is invisible. -/
def Obligations.HiddenRegistersAreInvisible : Prop :=
  (∀ s s' : State, VisiblyEqual s s' → SameOutcome VisiblyEqual (step s) (step s')) ∧
  (∀ (W : Schedule) (v : Working), VisiblyEqual State.reset { State.reset with W := W, work := v })

/-! ## Compression of a block -/

/-- R134, R162: Expand(B) is the block's sixteen words and then the recurrence; after an accepted BLOCK and its 64
rounds the schedule file holds Expand of M at acceptance (whatever the host does between, BlockInFlightComputesCompress
says it); Compress(S, W) is the loop of 64 rounds from S. -/
def Obligations.ExpandAndCompressFollowTheirLoops : Prop :=
  (∀ (B : Block) (i : Fin 16), (expand B)[i.val] = B[i]) ∧
  (∀ (B : Block) (t : Fin 64), 16 ≤ t.val →
    (expand B)[t] = (expand B)[t.val - 16]'(by omega) + sigma0 ((expand B)[t.val - 15]'(by omega)) +
      (expand B)[t.val - 7]'(by omega) + sigma1 ((expand B)[t.val - 2]'(by omega))) ∧
  (∀ (H0 : HashWords) (B0 : Block) (s : State), InFlight H0 B0 s → s.t = 64 → s.W = expand B0) ∧
  (∀ s : State, s.busy = false → s.phase ≠ .final → s.t = 0 → s.script = [⟨0, .transaction 0x2000000002⟩] →
    ∃ s', Host.Core.run core 65 s = .next s' ∧ s'.busy = true ∧ s'.t = 64 ∧ s'.W = expand s.M) ∧
  (∀ (S : HashWords) (W : Schedule), compress S W =
    ((List.finRange 64).foldl (fun (v : Working) (i : Fin 64) =>
      let x := v.h + bigSigma1 v.e + ch v.e v.f v.g + roundConstant i + W[i]
      let y := bigSigma0 v.a + maj v.a v.b v.c
      ⟨x + y, v.a, v.b, v.c, v.d + x, v.e, v.f, v.g⟩)
      ⟨S[0], S[1], S[2], S[3], S[4], S[5], S[6], S[7]⟩).toWords)

/-- R163, R161, R190: an accepted BLOCK puts the block in flight from H and M at acceptance; every step but a RESET,
whatever the host does, keeps it in flight or is its FOLD; after the last round a..h hold Compress(H, Expand(M)), and
the FOLD leaves `H ⊞ Compress(H, Expand(M))` in the accumulator. -/
def Obligations.BlockInFlightComputesCompress : Prop :=
  (∀ s s' : State, rejection .block s = none → exec .block s = .next s' → InFlight s.H s.M s') ∧
  (∀ (H0 : HashWords) (B0 : Block) (s : State), InFlight H0 B0 s → ResetNotNext s →
    ∃ s', step s = .next s' ∧
      (InFlight H0 B0 s' ∨
        (s.t = 64 ∧ s'.busy = false ∧ s'.t = 0 ∧ s'.phase = .accum ∧
          s'.H = addWords H0 (compress H0 (expand B0))))) ∧
  (∀ (H0 : HashWords) (B0 : Block) (s : State), InFlight H0 B0 s → s.t = 64 →
    s.work.toWords = compress H0 (expand B0) ∧ s.W = expand B0)

/-- R192: one accepted BLOCK followed by its 64 ROUNDs and its FOLD changes H to `H ⊞ Compress(H, Expand(M))`; M and the
error record are as before, and the phase is ACCUM. -/
def Obligations.BlockUpdatesTheAccumulator : Prop :=
  ∀ s : State, s.busy = false → s.phase ≠ .final → s.script = [⟨0, .transaction 0x2000000002⟩] →
    s.t = 0 →
    ∃ s', Host.Core.run core 66 s = .next s' ∧
      s'.H = addWords s.H (compress s.H (expand s.M)) ∧
      s'.M = s.M ∧ s'.busy = false ∧ s'.t = 0 ∧ s'.phase = .accum ∧
      s'.err = s.err ∧ s'.errcode = s.errcode ∧ s'.replies = s.replies ∧ s'.script = []

/-- R285, R291: a block just accepted reaches its FOLD after exactly 65 engine micro-steps, and after k rounds the round
counter shows k. -/
def Obligations.BlockTakesSixtyFiveMicroSteps : Prop :=
  ∀ s : State, s.busy = true → s.t = 0 → s.script = [] →
    (∀ k : Nat, k ≤ 64 → ∃ s', Host.Core.run core k s = .next s' ∧ s'.busy = true ∧ s'.t.toNat = k) ∧
    ∃ s', Host.Core.run core 65 s = .next s' ∧ s'.busy = false ∧ s'.t = 0

/-- R288, R285, R212: under the model's schedules every run ends: from every state with the invariants, whatever the
host's script, some number of steps issues all of it and leaves busy = 0. -/
def Obligations.EveryRunEnds : Prop :=
  ∀ s : State, Inv s → ∃ (n : Nat) (s' : State), Host.Core.run core n s = .next s' ∧ RunEnded s'

/-! ## The host's functions -/

/-- R112: Pad(m) is m, the byte 0x80, the least number k of zero bytes with (n + 1 + k) mod 64 = 56, and the bit length
as eight bytes, most significant first; its length is n + 1 + k + 8. -/
def Obligations.PaddedMessageByteByByte : Prop :=
  ∀ m : List Byte, bitLength m < 2 ^ 64 →
    ∃ k : Nat, (m.length + 1 + k) % 64 = 56 ∧ (∀ j : Nat, (m.length + 1 + j) % 64 = 56 → k ≤ j) ∧
      (pad m).length = m.length + 1 + k + 8 ∧
      (∀ i : Nat, i < m.length → (pad m)[i]? = m[i]?) ∧
      (pad m)[m.length]? = some 0x80 ∧
      (∀ i : Nat, m.length < i → i < m.length + 1 + k → (pad m)[i]? = some 0x00) ∧
      (∀ i : Nat, i < 8 → ∃ b : Byte, (pad m)[m.length + 1 + k + i]? = some b ∧
        b.toNat = bitLength m / 2 ^ (56 - 8 * i) % 256)

/-- R114: the padded message is exactly N blocks, `N = floor((n + 8) / 64) + 1 = ceil((n + 9) / 64)`.
For 8n ≥ 2^64, where the spec defines no padding, it is about the model's own total functions (log 26). -/
def Obligations.PaddingMakesWholeBlocks : Prop :=
  ∀ m : List Byte,
    (pad m).length = 64 * blockCount m.length ∧
    blockCount m.length = (m.length + 8) / 64 + 1 ∧
    blockCount m.length = (m.length + 9 + 63) / 64 ∧
    (messageBlocks m).length = blockCount m.length

/-- R115: word i of block b is made of bytes 64b+4i to 64b+4i+3, the first of them in bits [31:24]; the blocks are in
message order; LOADBLK writes word i to MSGi. For 8n ≥ 2^64, where the spec defines no blocks, the clause on
`messageBlocks` is about the model's own total functions (log 26). -/
def Obligations.PackedWordsAreBigEndian : Prop :=
  (∀ (p : List Byte) (b : Nat) (i : Fin 16) (h : 64 * b + 64 ≤ p.length),
    ((packBlock p b)[i]).toNat =
      (p[64 * b + 4 * i.val]'(by omega)).toNat * 2 ^ 24 + (p[64 * b + 4 * i.val + 1]'(by omega)).toNat * 2 ^ 16 +
      (p[64 * b + 4 * i.val + 2]'(by omega)).toNat * 2 ^ 8 + (p[64 * b + 4 * i.val + 3]'(by omega)).toNat) ∧
  (∀ (m : List Byte) (b : Nat), b < blockCount m.length → (messageBlocks m)[b]? = some (packBlock (pad m) b)) ∧
  (∀ B : Block, expandLine (.loadblk B) = (List.finRange 16).map fun i => writeReg (msgAddr i) B[i])

/-- R113: the last block's MSG14 and MSG15 are the high and the low word of the bit length, and MSG14 is 0 for every
message of fewer than 2^29 bytes. -/
def Obligations.LastBlockEndsWithTheBitLength : Prop :=
  ∀ m : List Byte, bitLength m < 2 ^ 64 →
    ((packBlock (pad m) (blockCount m.length - 1))[14]).toNat = bitLength m / 2 ^ 32 ∧
    ((packBlock (pad m) (blockCount m.length - 1))[15]).toNat = bitLength m % 2 ^ 32 ∧
    (m.length < 2 ^ 29 → (packBlock (pad m) (blockCount m.length - 1))[14] = 0)

/-- R193: byte 4j + k of the digest is bits [31 - 8k : 24 - 8k] of H[j]. -/
def Obligations.DigestBytesAreBigEndian : Prop :=
  ∀ (H : HashWords) (j : Fin 8) (k : Fin 4),
    (serialize H)[4 * j.val + k.val]'(by omega) = (H[j] >>> (24 - 8 * k.val)).setWidth 8

/-- R117: for a message whose bit length does not fit in 64 bits the host fails with InputTooLarge and issues no
transaction; for every other it does not fail. -/
def Obligations.InputTooLargeIssuesNothing : Prop :=
  (∀ m : List Byte, 2 ^ 64 ≤ bitLength m → hashActions m = .error .inputTooLarge) ∧
  (∀ m : List Byte, bitLength m < 2 ^ 64 → ∃ actions, hashActions m = .ok actions)

/-- R118: what the driver issues, and that it fails without reading the digest. The check of STATUS is one action of the
model's own (log 14): with an error recorded the host leaves out the actions it is told to. Run from any state with the
invariants, the driver's run ends; with an error recorded the last word read is STATUS and the driver fails, else eight
digest words follow it and their bytes are returned; and an INIT issued while busy makes it fail. -/
def Obligations.DriverFailsWithoutReadingTheDigest : Prop :=
  (∀ m : List Byte, bitLength m < 2 ^ 64 → hashActions m = .ok
    ([writeReg ctrlAddr 0x00000001] ++
      (messageBlocks m).flatMap (fun B => (List.finRange 16).map (fun i => writeReg (msgAddr i) B[i]) ++
        [.poll [], writeReg ctrlAddr 0x00000002]) ++
      [.poll [], writeReg ctrlAddr 0x00000003, .statusCheck 8] ++
      (List.finRange 8).map fun j => readReg (digestAddr j))) ∧
  (∀ (s : State) (g skip : Nat) (rest : List HostEntry), s.script = ⟨g, .statusCheck skip⟩ :: rest →
    (g = 0 ∨ (s.busy = false ∧ s.t = 0)) →
    (s.err = true → step s = .next { s with script := rest.drop skip, replies := s.replies ++ [statusWord s] }) ∧
    (s.err = false → step s = .next { s with script := rest, replies := s.replies ++ [statusWord s] })) ∧
  (∀ (m : List Byte) (actions : List HostAction) (s : State), hashActions m = .ok actions →
    schedules s.script actions → Inv s →
    ∃ (n : Nat) (s' : State) (words : List Word),
      Host.Core.run core n s = .next s' ∧ RunEnded s' ∧ s'.replies = s.replies ++ words ∧
      (s'.err = true → hashResult m words = some (.error .errorRecorded) ∧
        ∃ (polled : List Word) (status : Word), words = polled ++ [status] ∧ status.getLsbD 3 = true) ∧
      (s'.err = false → ∃ (polled : List Word) (status : Word) (d : HashWords),
        words = polled ++ [status] ++ d.toList ∧ status.getLsbD 3 = false ∧
        hashResult m words = some (.ok (serialize d))) ∧
      (s.busy = true → s.script.head?.map (·.gap) = some 0 → s'.err = true))

/-- R195: end-to-end correctness. From any state with the block idle, if the host runs HashOnCore(m), under any schedule
and with no RESET, then the run ends with no error raised, and the bytes the driver returns are SHA256(m). -/
def Obligations.HashOnCoreReturnsSha256 : Prop :=
  ∀ (m : List Byte) (actions : List HostAction) (s : State),
    hashActions m = .ok actions → schedules s.script actions → s.busy = false → s.t = 0 →
    ∃ (n : Nat) (s' : State) (words : List Word), Host.Core.run core n s = .next s' ∧ RunEnded s' ∧
      s'.err = false ∧ s'.everErr = s.everErr ∧ s'.replies = s.replies ++ words ∧
      hashResult m words = some (.ok (sha256 m))
end

