-- ==== Sys2Proof/Laws/Encoding.lean ====
section
/-! SUPPORT. The fields of the two word formats (30_encoding.md R80, R85): a field of a built word is the field it
was built from, and a word is built from its fields. Everything goes through the words' values. -/

namespace Sys2Proof

/-- The value of a transaction by its fields (R80). -/
theorem htWord_toNat (we : Bool) (addr : PortAddr) (data : Word) :
    (htWord we addr data).toNat = we.toNat * 2 ^ 37 + addr.toNat * 2 ^ 32 + data.toNat := by
  have hd := data.isLt
  have ha := addr.isLt
  change (BitVec.ofBool we ++ addr ++ data).toNat = _
  rw [BitVec.toNat_append, BitVec.toNat_append, ← Nat.shiftLeft_add_eq_or_of_lt hd,
    ← Nat.shiftLeft_add_eq_or_of_lt ha]
  simp only [Nat.shiftLeft_eq, BitVec.toNat_ofBool]
  omega

theorem htWe_eq (T : Transaction) : htWe T = decide (2 ^ 37 ≤ T.toNat) := by
  have := T.isLt
  rw [htWe, BitVec.getLsbD, Nat.testBit_eq_decide_div_mod_eq]
  congr 1
  apply propext
  omega

theorem htAddr_toNat (T : Transaction) : (htAddr T).toNat = T.toNat / 2 ^ 32 % 2 ^ 5 := by
  simp [htAddr, Nat.shiftRight_eq_div_pow]

theorem htData_toNat (T : Transaction) : (htData T).toNat = T.toNat % 2 ^ 32 := by
  simp [htData]

theorem htWe_htWord (we : Bool) (addr : PortAddr) (data : Word) : htWe (htWord we addr data) = we := by
  have hd := data.isLt
  have ha := addr.isLt
  rw [htWe_eq, htWord_toNat]
  cases we <;> simp <;> omega

theorem htAddr_htWord (we : Bool) (addr : PortAddr) (data : Word) : htAddr (htWord we addr data) = addr := by
  have hd := data.isLt
  have ha := addr.isLt
  apply BitVec.eq_of_toNat_eq
  rw [htAddr_toNat, htWord_toNat]
  omega

theorem htData_htWord (we : Bool) (addr : PortAddr) (data : Word) : htData (htWord we addr data) = data := by
  have hd := data.isLt
  apply BitVec.eq_of_toNat_eq
  rw [htData_toNat, htWord_toNat]
  omega

/-- A transaction is its three fields (R80). -/
theorem htWord_of_fields (T : Transaction) : htWord (htWe T) (htAddr T) (htData T) = T := by
  have hT := T.isLt
  apply BitVec.eq_of_toNat_eq
  rw [htWord_toNat, htWe_eq, htAddr_toNat, htData_toNat]
  by_cases h : 2 ^ 37 ≤ T.toNat
  · simp only [h, decide_true, Bool.toNat_true]; omega
  · simp only [h, decide_false, Bool.toNat_false]; omega

/-- The value of a sequencer word by its fields (R85). -/
theorem sqWord_toNat (busy : Bool) (t : BitVec 7) : (sqWord busy t).toNat = busy.toNat * 2 ^ 7 + t.toNat := by
  have ht := t.isLt
  change (BitVec.ofBool busy ++ t).toNat = _
  rw [BitVec.toNat_append, ← Nat.shiftLeft_add_eq_or_of_lt ht]
  simp only [Nat.shiftLeft_eq, BitVec.toNat_ofBool]

theorem sqBusy_sqWord (busy : Bool) (t : BitVec 7) : sqBusy (sqWord busy t) = busy := by
  have ht := t.isLt
  rw [sqBusy, BitVec.getLsbD, Nat.testBit_eq_decide_div_mod_eq, sqWord_toNat]
  cases busy <;> simp <;> omega

theorem sqRound_sqWord (busy : Bool) (t : BitVec 7) : sqRound (sqWord busy t) = t := by
  have ht := t.isLt
  apply BitVec.eq_of_toNat_eq
  simp only [sqRound, BitVec.extractLsb'_toNat, Nat.shiftRight_zero, sqWord_toNat]
  omega

/-- The group of an address by its value (R55). -/
theorem addrGroup_toNat (addr : PortAddr) : (addrGroup addr).toNat = addr.toNat / 8 := by
  have := addr.isLt
  simp only [addrGroup, BitVec.extractLsb'_toNat, Nat.shiftRight_eq_div_pow]
  omega

theorem addrLow3_val (addr : PortAddr) : (addrLow3 addr).val = addr.toNat % 8 := by
  simp [addrLow3]

theorem addrLow4_val (addr : PortAddr) : (addrLow4 addr).val = addr.toNat % 16 := by
  simp [addrLow4]

/-! ## What decoding gives, by fields -/

/-- Decoding sees a transaction's fields only (R86). -/
theorem decodeHT_htWord (we : Bool) (addr : PortAddr) (data : Word) :
    decodeHT (htWord we addr data) =
      if we = true ∧ addr = 0x00 then decodeCommand data
      else if addr = 0x00 then .rdCtrl
      else if addr = 0x01 then (if we then .wrStatus data else .rdStatus)
      else if addrGroup addr = 0b00 then
        (if we then .wrRsv (addrLow3 addr) data else .rdRsv (addrLow3 addr))
      else if addrGroup addr = 0b01 then
        (if we then .wrDigest (addrLow3 addr) data else .rdDigest (addrLow3 addr))
      else (if we then .wrMsg (addrLow4 addr) data else .rdMsg (addrLow4 addr)) := by
  rw [decodeHT, htWe_htWord, htAddr_htWord, htData_htWord]

theorem decode_ctrlWrite (data : Word) : decodeHT (htWord true 0x00 data) = decodeCommand data := by
  simp [decodeHT_htWord]

/-- A CTRL write whose data is above 3 is CTRL_ILLEGAL (R82, R88). -/
theorem decodeCommand_illegal (data : Word) (h : 3 < data.toNat) : decodeCommand data = .ctrlIllegal data := by
  have h0 : data ≠ 0x00000000 := by rintro rfl; exact absurd h (by decide)
  have h1 : data ≠ 0x00000001 := by rintro rfl; exact absurd h (by decide)
  have h2 : data ≠ 0x00000002 := by rintro rfl; exact absurd h (by decide)
  have h3 : data ≠ 0x00000003 := by rintro rfl; exact absurd h (by decide)
  rw [decodeCommand, if_neg h0, if_neg h1, if_neg h2, if_neg h3]

theorem reservedAddr_fields : ∀ a : Fin 8, 2 ≤ a.val →
    BitVec.ofNat 5 a.val ≠ 0x00 ∧ BitVec.ofNat 5 a.val ≠ 0x01 ∧
      addrGroup (BitVec.ofNat 5 a.val) = 0b00 ∧ addrLow3 (BitVec.ofNat 5 a.val) = a := by decide

theorem digestAddr_fields : ∀ j : Fin 8,
    BitVec.ofNat 5 (0x08 + j.val) ≠ 0x00 ∧ BitVec.ofNat 5 (0x08 + j.val) ≠ 0x01 ∧
      addrGroup (BitVec.ofNat 5 (0x08 + j.val)) ≠ 0b00 ∧ addrGroup (BitVec.ofNat 5 (0x08 + j.val)) = 0b01 ∧
      addrLow3 (BitVec.ofNat 5 (0x08 + j.val)) = j := by decide

theorem msgAddr_fields : ∀ i : Fin 16,
    BitVec.ofNat 5 (0x10 + i.val) ≠ 0x00 ∧ BitVec.ofNat 5 (0x10 + i.val) ≠ 0x01 ∧
      addrGroup (BitVec.ofNat 5 (0x10 + i.val)) ≠ 0b00 ∧ addrGroup (BitVec.ofNat 5 (0x10 + i.val)) ≠ 0b01 ∧
      addrLow4 (BitVec.ofNat 5 (0x10 + i.val)) = i := by decide

/-- A reserved address, by its number (R87 rows 9 and 10). -/
theorem decodeHT_reserved (we : Bool) (a : Fin 8) (data : Word) (h : 2 ≤ a.val) :
    decodeHT (htWord we (BitVec.ofNat 5 a.val) data) = if we then .wrRsv a data else .rdRsv a := by
  obtain ⟨h0, h1, h2, h3⟩ := reservedAddr_fields a h
  rw [decodeHT_htWord, if_neg (fun c => h0 c.2), if_neg h0, if_neg h1, if_pos h2, h3]

/-- A DIGEST address, by its index (R87 rows 11 and 12). -/
theorem decodeHT_digest (we : Bool) (j : Fin 8) (data : Word) :
    decodeHT (htWord we (BitVec.ofNat 5 (0x08 + j.val)) data) = if we then .wrDigest j data else .rdDigest j := by
  obtain ⟨h0, h1, h2, h3, h4⟩ := digestAddr_fields j
  rw [decodeHT_htWord, if_neg (fun c => h0 c.2), if_neg h0, if_neg h1, if_neg h2, if_pos h3, h4]

/-- A MSG address, by its index (R87 rows 13 and 14). -/
theorem decodeHT_msg (we : Bool) (i : Fin 16) (data : Word) :
    decodeHT (htWord we (BitVec.ofNat 5 (0x10 + i.val)) data) = if we then .wrMsg i data else .rdMsg i := by
  obtain ⟨h0, h1, h2, h3, h4⟩ := msgAddr_fields i
  rw [decodeHT_htWord, if_neg (fun c => h0 c.2), if_neg h0, if_neg h1, if_neg h2, if_neg h3, h4]

/-- Every address is CTRL, STATUS, reserved, a DIGEST or a MSG address (R55). -/
theorem portAddr_cases (addr : PortAddr) :
    addr = 0x00 ∨ addr = 0x01 ∨ (∃ a : Fin 8, 2 ≤ a.val ∧ addr = BitVec.ofNat 5 a.val) ∨
      (∃ j : Fin 8, addr = BitVec.ofNat 5 (0x08 + j.val)) ∨ ∃ i : Fin 16, addr = BitVec.ofNat 5 (0x10 + i.val) := by
  revert addr; decide

/-! ## Sequencer words -/

theorem decodeSQ_sqWord (busy : Bool) (t : BitVec 7) :
    decodeSQ (sqWord busy t) =
      if busy then
        if h : t.toNat < 64 then .ok (.round ⟨t.toNat, h⟩)
        else if t = 64 then .ok .fold
        else .error .unreachableStep
      else if t = 0 then .error .noEngineStep
      else .error .unreachableStep := by
  simp only [decodeSQ, sqBusy_sqWord, sqRound_sqWord]

theorem decodeSQ_round (t : BitVec 7) (k : Fin 64) (h : t.toNat = k.val) :
    decodeSQ (sqWord true t) = .ok (.round k) := by
  have hk := k.isLt
  rw [decodeSQ_sqWord, if_pos rfl, dif_pos (by omega)]
  simp [h]

theorem decodeSQ_fold : decodeSQ (sqWord true 64) = .ok .fold := by decide

theorem decodeSQ_idle : decodeSQ (sqWord false 0) = .error .noEngineStep := by decide

end Sys2Proof
end

