-- ==== Sys2Proof/Laws/State.lean ====
section
/-! SUPPORT. One lemma a field for each update of the state, so that no later proof unfolds a record update. -/

namespace Sys2Proof.Machine

variable (s : State)

/-! ## raise -/

@[simp] theorem raise_H (c : CmdError) : (raise c s).H = s.H := by
  unfold raise; split <;> simp_all
@[simp] theorem raise_work (c : CmdError) : (raise c s).work = s.work := by
  unfold raise; split <;> simp_all
@[simp] theorem raise_W (c : CmdError) : (raise c s).W = s.W := by
  unfold raise; split <;> simp_all
@[simp] theorem raise_M (c : CmdError) : (raise c s).M = s.M := by
  unfold raise; split <;> simp_all
@[simp] theorem raise_t (c : CmdError) : (raise c s).t = s.t := by
  unfold raise; split <;> simp_all
@[simp] theorem raise_busy (c : CmdError) : (raise c s).busy = s.busy := by
  unfold raise; split <;> simp_all
@[simp] theorem raise_phase (c : CmdError) : (raise c s).phase = s.phase := by
  unfold raise; split <;> simp_all
@[simp] theorem raise_err (c : CmdError) : (raise c s).err = true := by
  unfold raise; split <;> simp_all
@[simp] theorem raise_errcode (c : CmdError) : (raise c s).errcode = if s.err then s.errcode else errorCode c := by
  unfold raise; split <;> simp_all
@[simp] theorem raise_everErr (c : CmdError) : (raise c s).everErr = true := by
  unfold raise; split <;> simp_all
@[simp] theorem raise_script (c : CmdError) : (raise c s).script = s.script := by
  unfold raise; split <;> simp_all
@[simp] theorem raise_replies (c : CmdError) : (raise c s).replies = s.replies := by
  unfold raise; split <;> simp_all
@[simp] theorem raise_draws (c : CmdError) : (raise c s).draws = s.draws := by
  unfold raise; split <;> simp_all

/-! ## clearError -/

@[simp] theorem clearError_H : (clearError s).H = s.H := rfl
@[simp] theorem clearError_work : (clearError s).work = s.work := rfl
@[simp] theorem clearError_W : (clearError s).W = s.W := rfl
@[simp] theorem clearError_M : (clearError s).M = s.M := rfl
@[simp] theorem clearError_t : (clearError s).t = s.t := rfl
@[simp] theorem clearError_busy : (clearError s).busy = s.busy := rfl
@[simp] theorem clearError_phase : (clearError s).phase = s.phase := rfl
@[simp] theorem clearError_err : (clearError s).err = false := rfl
@[simp] theorem clearError_errcode : (clearError s).errcode = 0 := rfl
@[simp] theorem clearError_everErr : (clearError s).everErr = s.everErr := rfl
@[simp] theorem clearError_script : (clearError s).script = s.script := rfl
@[simp] theorem clearError_replies : (clearError s).replies = s.replies := rfl
@[simp] theorem clearError_draws : (clearError s).draws = s.draws := rfl

/-! ## deliver -/

@[simp] theorem deliver_H (v : Word) : (deliver v s).H = s.H := rfl
@[simp] theorem deliver_work (v : Word) : (deliver v s).work = s.work := rfl
@[simp] theorem deliver_W (v : Word) : (deliver v s).W = s.W := rfl
@[simp] theorem deliver_M (v : Word) : (deliver v s).M = s.M := rfl
@[simp] theorem deliver_t (v : Word) : (deliver v s).t = s.t := rfl
@[simp] theorem deliver_busy (v : Word) : (deliver v s).busy = s.busy := rfl
@[simp] theorem deliver_phase (v : Word) : (deliver v s).phase = s.phase := rfl
@[simp] theorem deliver_err (v : Word) : (deliver v s).err = s.err := rfl
@[simp] theorem deliver_errcode (v : Word) : (deliver v s).errcode = s.errcode := rfl
@[simp] theorem deliver_everErr (v : Word) : (deliver v s).everErr = s.everErr := rfl
@[simp] theorem deliver_script (v : Word) : (deliver v s).script = s.script := rfl
@[simp] theorem deliver_replies (v : Word) : (deliver v s).replies = s.replies ++ [v] := rfl
@[simp] theorem deliver_draws (v : Word) : (deliver v s).draws = s.draws := rfl

/-! ## writeMsg -/

@[simp] theorem writeMsg_H (i : Fin 16) (v : Word) : (writeMsg i v s).H = s.H := rfl
@[simp] theorem writeMsg_work (i : Fin 16) (v : Word) : (writeMsg i v s).work = s.work := rfl
@[simp] theorem writeMsg_W (i : Fin 16) (v : Word) : (writeMsg i v s).W = s.W := rfl
@[simp] theorem writeMsg_M (i : Fin 16) (v : Word) : (writeMsg i v s).M = s.M.set i.val v := rfl
@[simp] theorem writeMsg_t (i : Fin 16) (v : Word) : (writeMsg i v s).t = s.t := rfl
@[simp] theorem writeMsg_busy (i : Fin 16) (v : Word) : (writeMsg i v s).busy = s.busy := rfl
@[simp] theorem writeMsg_phase (i : Fin 16) (v : Word) : (writeMsg i v s).phase = s.phase := rfl
@[simp] theorem writeMsg_err (i : Fin 16) (v : Word) : (writeMsg i v s).err = s.err := rfl
@[simp] theorem writeMsg_errcode (i : Fin 16) (v : Word) : (writeMsg i v s).errcode = s.errcode := rfl
@[simp] theorem writeMsg_everErr (i : Fin 16) (v : Word) : (writeMsg i v s).everErr = s.everErr := rfl
@[simp] theorem writeMsg_script (i : Fin 16) (v : Word) : (writeMsg i v s).script = s.script := rfl
@[simp] theorem writeMsg_replies (i : Fin 16) (v : Word) : (writeMsg i v s).replies = s.replies := rfl
@[simp] theorem writeMsg_draws (i : Fin 16) (v : Word) : (writeMsg i v s).draws = s.draws := rfl

/-! ## loadInitialHash -/

@[simp] theorem loadInitialHash_H : (loadInitialHash s).H = romIV := rfl
@[simp] theorem loadInitialHash_work : (loadInitialHash s).work = s.work := rfl
@[simp] theorem loadInitialHash_W : (loadInitialHash s).W = s.W := rfl
@[simp] theorem loadInitialHash_M : (loadInitialHash s).M = s.M := rfl
@[simp] theorem loadInitialHash_t : (loadInitialHash s).t = s.t := rfl
@[simp] theorem loadInitialHash_busy : (loadInitialHash s).busy = s.busy := rfl
@[simp] theorem loadInitialHash_phase : (loadInitialHash s).phase = s.phase := rfl
@[simp] theorem loadInitialHash_err : (loadInitialHash s).err = s.err := rfl
@[simp] theorem loadInitialHash_errcode : (loadInitialHash s).errcode = s.errcode := rfl
@[simp] theorem loadInitialHash_everErr : (loadInitialHash s).everErr = s.everErr := rfl
@[simp] theorem loadInitialHash_script : (loadInitialHash s).script = s.script := rfl
@[simp] theorem loadInitialHash_replies : (loadInitialHash s).replies = s.replies := rfl
@[simp] theorem loadInitialHash_draws : (loadInitialHash s).draws = s.draws := rfl

/-! ## enterIdle -/

@[simp] theorem enterIdle_H : (enterIdle s).H = s.H := rfl
@[simp] theorem enterIdle_work : (enterIdle s).work = s.work := rfl
@[simp] theorem enterIdle_W : (enterIdle s).W = s.W := rfl
@[simp] theorem enterIdle_M : (enterIdle s).M = s.M := rfl
@[simp] theorem enterIdle_t : (enterIdle s).t = 0 := rfl
@[simp] theorem enterIdle_busy : (enterIdle s).busy = s.busy := rfl
@[simp] theorem enterIdle_phase : (enterIdle s).phase = .idle := rfl
@[simp] theorem enterIdle_err : (enterIdle s).err = s.err := rfl
@[simp] theorem enterIdle_errcode : (enterIdle s).errcode = s.errcode := rfl
@[simp] theorem enterIdle_everErr : (enterIdle s).everErr = s.everErr := rfl
@[simp] theorem enterIdle_script : (enterIdle s).script = s.script := rfl
@[simp] theorem enterIdle_replies : (enterIdle s).replies = s.replies := rfl
@[simp] theorem enterIdle_draws : (enterIdle s).draws = s.draws := rfl

/-! ## loadSchedule -/

@[simp] theorem loadSchedule_H : (loadSchedule s).H = s.H := rfl
@[simp] theorem loadSchedule_work : (loadSchedule s).work = s.work := rfl
@[simp] theorem loadSchedule_W : (loadSchedule s).W = withBlock s.M s.W := rfl
@[simp] theorem loadSchedule_M : (loadSchedule s).M = s.M := rfl
@[simp] theorem loadSchedule_t : (loadSchedule s).t = s.t := rfl
@[simp] theorem loadSchedule_busy : (loadSchedule s).busy = s.busy := rfl
@[simp] theorem loadSchedule_phase : (loadSchedule s).phase = s.phase := rfl
@[simp] theorem loadSchedule_err : (loadSchedule s).err = s.err := rfl
@[simp] theorem loadSchedule_errcode : (loadSchedule s).errcode = s.errcode := rfl
@[simp] theorem loadSchedule_everErr : (loadSchedule s).everErr = s.everErr := rfl
@[simp] theorem loadSchedule_script : (loadSchedule s).script = s.script := rfl
@[simp] theorem loadSchedule_replies : (loadSchedule s).replies = s.replies := rfl
@[simp] theorem loadSchedule_draws : (loadSchedule s).draws = s.draws := rfl

/-! ## loadWorking -/

@[simp] theorem loadWorking_H : (loadWorking s).H = s.H := rfl
@[simp] theorem loadWorking_work : (loadWorking s).work = .ofWords s.H := rfl
@[simp] theorem loadWorking_W : (loadWorking s).W = s.W := rfl
@[simp] theorem loadWorking_M : (loadWorking s).M = s.M := rfl
@[simp] theorem loadWorking_t : (loadWorking s).t = s.t := rfl
@[simp] theorem loadWorking_busy : (loadWorking s).busy = s.busy := rfl
@[simp] theorem loadWorking_phase : (loadWorking s).phase = s.phase := rfl
@[simp] theorem loadWorking_err : (loadWorking s).err = s.err := rfl
@[simp] theorem loadWorking_errcode : (loadWorking s).errcode = s.errcode := rfl
@[simp] theorem loadWorking_everErr : (loadWorking s).everErr = s.everErr := rfl
@[simp] theorem loadWorking_script : (loadWorking s).script = s.script := rfl
@[simp] theorem loadWorking_replies : (loadWorking s).replies = s.replies := rfl
@[simp] theorem loadWorking_draws : (loadWorking s).draws = s.draws := rfl

/-! ## startRounds -/

@[simp] theorem startRounds_H : (startRounds s).H = s.H := rfl
@[simp] theorem startRounds_work : (startRounds s).work = s.work := rfl
@[simp] theorem startRounds_W : (startRounds s).W = s.W := rfl
@[simp] theorem startRounds_M : (startRounds s).M = s.M := rfl
@[simp] theorem startRounds_t : (startRounds s).t = 0 := rfl
@[simp] theorem startRounds_busy : (startRounds s).busy = true := rfl
@[simp] theorem startRounds_phase : (startRounds s).phase = .accum := rfl
@[simp] theorem startRounds_err : (startRounds s).err = s.err := rfl
@[simp] theorem startRounds_errcode : (startRounds s).errcode = s.errcode := rfl
@[simp] theorem startRounds_everErr : (startRounds s).everErr = s.everErr := rfl
@[simp] theorem startRounds_script : (startRounds s).script = s.script := rfl
@[simp] theorem startRounds_replies : (startRounds s).replies = s.replies := rfl
@[simp] theorem startRounds_draws : (startRounds s).draws = s.draws := rfl

/-! ## enterFinal -/

@[simp] theorem enterFinal_H : (enterFinal s).H = s.H := rfl
@[simp] theorem enterFinal_work : (enterFinal s).work = s.work := rfl
@[simp] theorem enterFinal_W : (enterFinal s).W = s.W := rfl
@[simp] theorem enterFinal_M : (enterFinal s).M = s.M := rfl
@[simp] theorem enterFinal_t : (enterFinal s).t = s.t := rfl
@[simp] theorem enterFinal_busy : (enterFinal s).busy = s.busy := rfl
@[simp] theorem enterFinal_phase : (enterFinal s).phase = .final := rfl
@[simp] theorem enterFinal_err : (enterFinal s).err = s.err := rfl
@[simp] theorem enterFinal_errcode : (enterFinal s).errcode = s.errcode := rfl
@[simp] theorem enterFinal_everErr : (enterFinal s).everErr = s.everErr := rfl
@[simp] theorem enterFinal_script : (enterFinal s).script = s.script := rfl
@[simp] theorem enterFinal_replies : (enterFinal s).replies = s.replies := rfl
@[simp] theorem enterFinal_draws : (enterFinal s).draws = s.draws := rfl

/-! ## endRounds -/

@[simp] theorem endRounds_H : (endRounds s).H = s.H := rfl
@[simp] theorem endRounds_work : (endRounds s).work = s.work := rfl
@[simp] theorem endRounds_W : (endRounds s).W = s.W := rfl
@[simp] theorem endRounds_M : (endRounds s).M = s.M := rfl
@[simp] theorem endRounds_t : (endRounds s).t = 0 := rfl
@[simp] theorem endRounds_busy : (endRounds s).busy = false := rfl
@[simp] theorem endRounds_phase : (endRounds s).phase = s.phase := rfl
@[simp] theorem endRounds_err : (endRounds s).err = s.err := rfl
@[simp] theorem endRounds_errcode : (endRounds s).errcode = s.errcode := rfl
@[simp] theorem endRounds_everErr : (endRounds s).everErr = s.everErr := rfl
@[simp] theorem endRounds_script : (endRounds s).script = s.script := rfl
@[simp] theorem endRounds_replies : (endRounds s).replies = s.replies := rfl
@[simp] theorem endRounds_draws : (endRounds s).draws = s.draws := rfl

/-! ## advanceRound -/

@[simp] theorem advanceRound_H : (advanceRound s).H = s.H := rfl
@[simp] theorem advanceRound_work : (advanceRound s).work = s.work := rfl
@[simp] theorem advanceRound_W : (advanceRound s).W = s.W := rfl
@[simp] theorem advanceRound_M : (advanceRound s).M = s.M := rfl
@[simp] theorem advanceRound_t : (advanceRound s).t = s.t + 1 := rfl
@[simp] theorem advanceRound_busy : (advanceRound s).busy = s.busy := rfl
@[simp] theorem advanceRound_phase : (advanceRound s).phase = s.phase := rfl
@[simp] theorem advanceRound_err : (advanceRound s).err = s.err := rfl
@[simp] theorem advanceRound_errcode : (advanceRound s).errcode = s.errcode := rfl
@[simp] theorem advanceRound_everErr : (advanceRound s).everErr = s.everErr := rfl
@[simp] theorem advanceRound_script : (advanceRound s).script = s.script := rfl
@[simp] theorem advanceRound_replies : (advanceRound s).replies = s.replies := rfl
@[simp] theorem advanceRound_draws : (advanceRound s).draws = s.draws := rfl

/-! ## resetBlock -/

@[simp] theorem resetBlock_H : (resetBlock s).H = romIV := rfl
@[simp] theorem resetBlock_work : (resetBlock s).work = freeWorking s.draws := rfl
@[simp] theorem resetBlock_W : (resetBlock s).W = freeSchedule s.draws := rfl
@[simp] theorem resetBlock_M : (resetBlock s).M = Vector.replicate 16 0 := rfl
@[simp] theorem resetBlock_t : (resetBlock s).t = 0 := rfl
@[simp] theorem resetBlock_busy : (resetBlock s).busy = false := rfl
@[simp] theorem resetBlock_phase : (resetBlock s).phase = .idle := rfl
@[simp] theorem resetBlock_err : (resetBlock s).err = false := rfl
@[simp] theorem resetBlock_errcode : (resetBlock s).errcode = 0 := rfl
@[simp] theorem resetBlock_everErr : (resetBlock s).everErr = s.everErr := rfl
@[simp] theorem resetBlock_script : (resetBlock s).script = s.script := rfl
@[simp] theorem resetBlock_replies : (resetBlock s).replies = s.replies := rfl
@[simp] theorem resetBlock_draws : (resetBlock s).draws = s.draws + 1 := rfl

/-! ## expandAt -/

@[simp] theorem expandAt_H (k : Fin 64) : (expandAt k s).H = s.H := rfl
@[simp] theorem expandAt_work (k : Fin 64) : (expandAt k s).work = s.work := rfl
@[simp] theorem expandAt_W (k : Fin 64) : (expandAt k s).W = expandWord k s.W := rfl
@[simp] theorem expandAt_M (k : Fin 64) : (expandAt k s).M = s.M := rfl
@[simp] theorem expandAt_t (k : Fin 64) : (expandAt k s).t = s.t := rfl
@[simp] theorem expandAt_busy (k : Fin 64) : (expandAt k s).busy = s.busy := rfl
@[simp] theorem expandAt_phase (k : Fin 64) : (expandAt k s).phase = s.phase := rfl
@[simp] theorem expandAt_err (k : Fin 64) : (expandAt k s).err = s.err := rfl
@[simp] theorem expandAt_errcode (k : Fin 64) : (expandAt k s).errcode = s.errcode := rfl
@[simp] theorem expandAt_everErr (k : Fin 64) : (expandAt k s).everErr = s.everErr := rfl
@[simp] theorem expandAt_script (k : Fin 64) : (expandAt k s).script = s.script := rfl
@[simp] theorem expandAt_replies (k : Fin 64) : (expandAt k s).replies = s.replies := rfl
@[simp] theorem expandAt_draws (k : Fin 64) : (expandAt k s).draws = s.draws := rfl

/-! ## mixRound -/

@[simp] theorem mixRound_H (k : Fin 64) : (mixRound k s).H = s.H := rfl
@[simp] theorem mixRound_work (k : Fin 64) : (mixRound k s).work = roundWorking s.work (roundConstant k) s.W[k] := rfl
@[simp] theorem mixRound_W (k : Fin 64) : (mixRound k s).W = s.W := rfl
@[simp] theorem mixRound_M (k : Fin 64) : (mixRound k s).M = s.M := rfl
@[simp] theorem mixRound_t (k : Fin 64) : (mixRound k s).t = s.t := rfl
@[simp] theorem mixRound_busy (k : Fin 64) : (mixRound k s).busy = s.busy := rfl
@[simp] theorem mixRound_phase (k : Fin 64) : (mixRound k s).phase = s.phase := rfl
@[simp] theorem mixRound_err (k : Fin 64) : (mixRound k s).err = s.err := rfl
@[simp] theorem mixRound_errcode (k : Fin 64) : (mixRound k s).errcode = s.errcode := rfl
@[simp] theorem mixRound_everErr (k : Fin 64) : (mixRound k s).everErr = s.everErr := rfl
@[simp] theorem mixRound_script (k : Fin 64) : (mixRound k s).script = s.script := rfl
@[simp] theorem mixRound_replies (k : Fin 64) : (mixRound k s).replies = s.replies := rfl
@[simp] theorem mixRound_draws (k : Fin 64) : (mixRound k s).draws = s.draws := rfl

/-! ## foldWords -/

@[simp] theorem foldWords_H : (foldWords s).H = addWords s.H s.work.toWords := rfl
@[simp] theorem foldWords_work : (foldWords s).work = s.work := rfl
@[simp] theorem foldWords_W : (foldWords s).W = s.W := rfl
@[simp] theorem foldWords_M : (foldWords s).M = s.M := rfl
@[simp] theorem foldWords_t : (foldWords s).t = s.t := rfl
@[simp] theorem foldWords_busy : (foldWords s).busy = s.busy := rfl
@[simp] theorem foldWords_phase : (foldWords s).phase = s.phase := rfl
@[simp] theorem foldWords_err : (foldWords s).err = s.err := rfl
@[simp] theorem foldWords_errcode : (foldWords s).errcode = s.errcode := rfl
@[simp] theorem foldWords_everErr : (foldWords s).everErr = s.everErr := rfl
@[simp] theorem foldWords_script : (foldWords s).script = s.script := rfl
@[simp] theorem foldWords_replies : (foldWords s).replies = s.replies := rfl
@[simp] theorem foldWords_draws : (foldWords s).draws = s.draws := rfl

/-- The block's words, at the schedule positions 0 to 15. -/
theorem withBlock_low (B : Block) (W : Schedule) (i : Nat) (h : i < 16) :
    (withBlock B W)[i]'(by omega) = B[i] := by
  simp [withBlock, h]

/-- The schedule positions from 16 on keep their words. -/
theorem withBlock_high (B : Block) (W : Schedule) (i : Nat) (h : ¬ i < 16) (hi : i < 64) :
    (withBlock B W)[i] = W[i] := by
  simp [withBlock, h]

end Sys2Proof.Machine
end

