-- ==== Sys2Proof/Laws/Exec.lean ====
section
/-! SUPPORT. What the meanings can do, said once: `Effect` lists every way an operation takes a state to a next
one, and `exec_next_iff` says that these are all. Later proofs go by cases on `Effect` and do not unfold `exec`. -/

namespace Sys2Proof.Machine

/-- Recording an error is what R241 and 10_state.md R30 describe. -/
theorem raise_eq_withError (c : CmdError) (s : State) : raise c s = withError (errorCode c) s := by
  unfold raise withError
  cases s with
  | mk H work W M t busy phase err errcode everErr script replies draws => cases err <;> rfl

/-- The word a read returns (45_register_access.md R210, R211, R214, R217, R218). -/
def readValue : Instr → State → Option Word
  | .rdCtrl, _ => some 0
  | .rdStatus, s => some (statusWord s)
  | .rdRsv _, _ => some 0
  | .rdDigest j, s => some (digestValue j s)
  | .rdMsg n, s => some (msgValue n s)
  | .nop, _ => none
  | .init, _ => none
  | .block, _ => none
  | .final, _ => none
  | .ctrlIllegal _, _ => none
  | .wrStatus _, _ => none
  | .wrRsv _ _, _ => none
  | .wrDigest _ _, _ => none
  | .wrMsg _ _, _ => none
  | .round _, _ => none
  | .fold, _ => none

/-- Every way an operation takes a state to a next state. -/
inductive Effect : Instr → State → State → Prop where
  | rejected {i : Instr} {s : State} (c : CmdError) (h : rejection i s = some c) : Effect i s (raise c s)
  | nop {s : State} : Effect .nop s s
  | init {s : State} (hb : s.busy = false) : Effect .init s (clearError (enterIdle (loadInitialHash s)))
  | block {s : State} (hb : s.busy = false) (hp : s.phase ≠ .final) :
      Effect .block s (startRounds (loadWorking (loadSchedule s)))
  | final {s : State} (hb : s.busy = false) (hp : s.phase = .accum) : Effect .final s (enterFinal s)
  | read {i : Instr} {s : State} (v : Word) (h : readValue i s = some v) : Effect i s (deliver v s)
  | wrMsg {s : State} (n : Fin 16) (v : Word) : Effect (.wrMsg n v) s (writeMsg n v s)
  | round {s : State} (k : Fin 64) (hb : s.busy = true) (ht : s.t.toNat = k.val) :
      Effect (.round k) s (advanceRound (mixRound k (expandAt k s)))
  | fold {s : State} (hb : s.busy = true) (ht : s.t = 64) : Effect .fold s (endRounds (foldWords s))

/-- A rejected operation does nothing but raise its error (60_exceptions.md R242). -/
theorem exec_rejected {i : Instr} {s : State} {c : CmdError} (h : rejection i s = some c) :
    exec i s = .next (raise c s) := by
  cases i <;> cases hb : s.busy <;> cases hp : s.phase <;>
    simp_all [rejection, acceptance, exec, execInit, execBlock, execFinal, execCtrlIllegal, execWrStatus,
      execWrDigest, execWrRsv]

/-- An operation that answers a next state has one of the effects listed. -/
theorem effect_of_exec {i : Instr} {s s' : State} (h : exec i s = .next s') : Effect i s s' := by
  cases hr : rejection i s with
  | some c =>
    rw [exec_rejected hr] at h
    cases h
    exact .rejected c hr
  | none =>
    cases i with
    | nop => cases h; exact .nop
    | init =>
      cases hb : s.busy <;> simp [rejection, acceptance, hb] at hr
      simp only [exec, execInit, hb] at h
      cases h
      exact .init hb
    | block =>
      cases hb : s.busy <;> cases hp : s.phase <;> simp [rejection, acceptance, hb, hp] at hr
      all_goals
        simp only [exec, execBlock, hb, hp] at h
        cases h
        exact .block hb (by simp [hp])
    | final =>
      cases hb : s.busy <;> cases hp : s.phase <;> simp [rejection, acceptance, hb, hp] at hr
      simp only [exec, execFinal, hb, hp] at h
      cases h
      exact .final hb hp
    | ctrlIllegal data => simp [rejection, acceptance] at hr
    | rdCtrl => cases h; exact .read _ rfl
    | rdStatus => cases h; exact .read _ rfl
    | wrStatus data => simp [rejection] at hr
    | rdRsv a => cases h; exact .read _ rfl
    | wrRsv a data => simp [rejection] at hr
    | rdDigest j => cases h; exact .read _ rfl
    | wrDigest j data => simp [rejection] at hr
    | rdMsg n => cases h; exact .read _ rfl
    | wrMsg n v => cases h; exact .wrMsg n v
    | round k =>
      simp only [exec, execRound] at h
      split at h
      · cases h; exact .round k (by simp_all) (by simp_all)
      · cases h
    | fold =>
      simp only [exec, execFold] at h
      split at h
      · cases h; exact .fold (by simp_all) (by simp_all)
      · cases h

/-- Every effect listed is what the operation does. -/
theorem exec_of_effect {i : Instr} {s s' : State} (h : Effect i s s') : exec i s = .next s' := by
  cases h with
  | rejected c h => exact exec_rejected h
  | nop => rfl
  | init hb => simp [exec, execInit, hb]
  | block hb hp => simp [exec, execBlock, hb, hp]
  | final hb hp => simp [exec, execFinal, hb, hp]
  | read v h =>
    cases i <;> simp [readValue] at h <;> subst h <;> rfl
  | wrMsg n v => rfl
  | round k hb ht => simp [exec, execRound, hb, ht]
  | fold hb ht => simp [exec, execFold, hb, ht]

theorem exec_next_iff {i : Instr} {s s' : State} : exec i s = .next s' ↔ Effect i s s' :=
  ⟨effect_of_exec, exec_of_effect⟩

/-- A host transaction always has an effect, and a micro-step has one where it is enabled (R289, R159, R182). -/
theorem effect_exists {i : Instr} {s : State} (h : Enabled i s) : ∃ s', Effect i s s' := by
  cases hr : rejection i s with
  | some c => exact ⟨_, .rejected c hr⟩
  | none =>
    cases i with
    | nop => exact ⟨_, .nop⟩
    | init =>
      cases hb : s.busy <;> simp [rejection, acceptance, hb] at hr
      exact ⟨_, .init hb⟩
    | block =>
      cases hb : s.busy <;> cases hp : s.phase <;> simp [rejection, acceptance, hb, hp] at hr
      all_goals exact ⟨_, .block hb (by simp [hp])⟩
    | final =>
      cases hb : s.busy <;> cases hp : s.phase <;> simp [rejection, acceptance, hb, hp] at hr
      exact ⟨_, .final hb hp⟩
    | ctrlIllegal data => simp [rejection, acceptance] at hr
    | rdCtrl => exact ⟨_, .read _ rfl⟩
    | rdStatus => exact ⟨_, .read _ rfl⟩
    | wrStatus data => simp [rejection] at hr
    | rdRsv a => exact ⟨_, .read _ rfl⟩
    | wrRsv a data => simp [rejection] at hr
    | rdDigest j => exact ⟨_, .read _ rfl⟩
    | wrDigest j data => simp [rejection] at hr
    | rdMsg n => exact ⟨_, .read _ rfl⟩
    | wrMsg n v => exact ⟨_, .wrMsg n v⟩
    | round k => exact ⟨_, .round k h.1 h.2⟩
    | fold => exact ⟨_, .fold h.1 h.2⟩

/-! ## The STATUS word -/

/-- The STATUS word's value by its fields (30_encoding.md R83). -/
theorem statusWord_value (s : State) :
    (statusWord s).toNat = s.t.toNat * 2 ^ 8 + s.errcode.toNat * 2 ^ 4 + s.err.toNat * 2 ^ 3 +
      (phaseBits s.phase).toNat * 2 ^ 1 + s.busy.toNat := by
  have ht := s.t.isLt
  have he := s.errcode.isLt
  have hp := (phaseBits s.phase).isLt
  have hr := (BitVec.ofBool s.err).isLt
  have hb := (BitVec.ofBool s.busy).isLt
  change (BitVec.setWidth 32
    (s.t ++ s.errcode ++ BitVec.ofBool s.err ++ phaseBits s.phase ++ BitVec.ofBool s.busy)).toNat = _
  rw [BitVec.toNat_setWidth, BitVec.toNat_append, BitVec.toNat_append, BitVec.toNat_append, BitVec.toNat_append,
    ← Nat.shiftLeft_add_eq_or_of_lt he, ← Nat.shiftLeft_add_eq_or_of_lt hr, ← Nat.shiftLeft_add_eq_or_of_lt hp,
    ← Nat.shiftLeft_add_eq_or_of_lt hb]
  simp only [Nat.shiftLeft_eq, BitVec.toNat_ofBool] at *
  omega

/-- Bit 0 of the STATUS word is busy (10_state.md R33). -/
theorem statusWord_busy (s : State) : (statusWord s).getLsbD 0 = s.busy := by
  rw [BitVec.getLsbD, Nat.testBit_eq_decide_div_mod_eq, statusWord_value]
  cases s.busy <;> simp <;> omega

/-- Bit 3 of the STATUS word is err (R33). -/
theorem statusWord_err (s : State) : (statusWord s).getLsbD 3 = s.err := by
  have hp := (phaseBits s.phase).isLt
  have hb : s.busy.toNat ≤ 1 := Bool.toNat_le s.busy
  rw [BitVec.getLsbD, Nat.testBit_eq_decide_div_mod_eq, statusWord_value]
  cases s.err <;> simp <;> omega

end Sys2Proof.Machine
end

