-- ==== Sys2Proof/Laws/Step.lean ====
section
/-! SUPPORT. What a step can do, said once: which transition `fetch` chooses, and what the step is then. -/

namespace Sys2Proof.Machine

/-! ## Whose turn it is -/

/-- Decoding a host transaction never gives a micro-step (30_encoding.md R87). -/
theorem isMicroStep_decodeHT (T : Transaction) : isMicroStep (decodeHT T) = false := by
  simp only [decodeHT, decodeCommand]
  repeat' split
  all_goals rfl

/-- A host transaction is enabled in every state (70_reset_and_hazards.md R289). -/
theorem enabled_of_not_microStep {i : Instr} (h : isMicroStep i = false) (s : State) : Enabled i s := by
  cases i <;> trivial

/-- The micro-step a state's sequencer word decodes to is enabled in that state (30_encoding.md R85, R86). -/
theorem enabled_of_decodeSQ {s : State} {i : Instr} (h : decodeSQ (sequencerWord s) = .ok i) :
    isMicroStep i = true ∧ Enabled i s := by
  rw [sequencerWord, decodeSQ_sqWord] at h
  split at h
  next hb =>
    split at h
    next ht => cases h; exact ⟨rfl, hb, rfl⟩
    next ht =>
      split at h
      next h64 => cases h; exact ⟨rfl, hb, h64⟩
      next => cases h
  next hb =>
    split at h
    next => cases h
    next => cases h

/-- With busy = 0 and t = 0 no micro-step is enabled (R85). -/
theorem decodeSQ_of_idle {s : State} (hb : s.busy = false) (ht : s.t = 0) :
    decodeSQ (sequencerWord s) = .error .noEngineStep := by
  rw [sequencerWord, hb, ht]; exact decodeSQ_idle

/-- The sequencer word decodes in every state with the invariants of 10_state.md R31. -/
theorem decodeSQ_of_inv {s : State} (h : Inv s) :
    (s.busy = false ∧ s.t = 0 ∧ decodeSQ (sequencerWord s) = .error .noEngineStep) ∨
      (s.busy = true ∧ ∃ i, decodeSQ (sequencerWord s) = .ok i) := by
  obtain ⟨-, -, hidle, hle, -, -⟩ := h
  cases hb : s.busy with
  | false => exact .inl ⟨rfl, hidle hb, decodeSQ_of_idle hb (hidle hb)⟩
  | true =>
    refine .inr ⟨rfl, ?_⟩
    rw [sequencerWord, hb, decodeSQ_sqWord, if_pos rfl]
    split
    · exact ⟨_, rfl⟩
    · next hlt =>
      have h64 : s.t = 64 := BitVec.eq_of_toNat_eq (by simp; omega)
      exact ⟨.fold, by simp [h64]⟩

/-- What the host's next action runs, or that it is a RESET, in a state with the rest of the script left. -/
theorem hostTurn_cases (a : HostAction) (rest : List HostEntry) (s : State) :
    (∃ i l, isMicroStep i = false ∧ hostTurn a rest s = .run i { s with script := l }) ∨
      (a = .reset ∧ hostTurn a rest s = .reset { s with script := rest }) := by
  cases a with
  | transaction T => exact .inl ⟨_, _, isMicroStep_decodeHT T, rfl⟩
  | poll gaps => exact .inl ⟨.rdStatus, _, rfl, rfl⟩
  | statusCheck skip => exact .inl ⟨.rdStatus, _, rfl, rfl⟩
  | reset => exact .inr ⟨rfl, rfl⟩

/-- What the next transition can be: a host transaction, the enabled micro-step, a RESET, waiting in an idle state with
an empty script, or the fault of an unreachable sequencer word. Only the script differs in the state it runs from. -/
theorem fetch_cases (s : State) :
    (∃ i l, isMicroStep i = false ∧ fetch s = .run i { s with script := l }) ∨
    (∃ i l, decodeSQ (sequencerWord s) = .ok i ∧ fetch s = .run i { s with script := l }) ∨
    (∃ l, fetch s = .reset { s with script := l }) ∨
    (s.script = [] ∧ decodeSQ (sequencerWord s) = .error .noEngineStep ∧ fetch s = .wait) ∨
    (∃ e, e ≠ .noEngineStep ∧ decodeSQ (sequencerWord s) = .error e ∧ fetch s = .stop .unreachableSequencer) := by
  rw [fetch]
  split
  next a rest hs =>
    rcases hostTurn_cases a rest s with h | ⟨-, h⟩
    · exact .inl h
    · exact .inr (.inr (.inl ⟨_, h⟩))
  next g a rest hs =>
    split
    next i hi => exact .inr (.inl ⟨i, _, hi, rfl⟩)
    next =>
      rcases hostTurn_cases a rest s with h | ⟨-, h⟩
      · exact .inl h
      · exact .inr (.inr (.inl ⟨_, h⟩))
    next e hne he => exact .inr (.inr (.inr (.inr ⟨e, fun c => hne c, he, rfl⟩)))
  next hs =>
    split
    next i hi => exact .inr (.inl ⟨i, s.script, hi, rfl⟩)
    next he => exact .inr (.inr (.inr (.inl ⟨hs, he, rfl⟩)))
    next e hne he => exact .inr (.inr (.inr (.inr ⟨e, fun c => hne c, he, rfl⟩)))

/-! ## What a step does -/

/-- A step that answers a next state is an operation's effect from the state with some script left, a RESET of it, or
waiting. -/
theorem step_cases {s s' : State} (h : step s = .next s') :
    (∃ i l, Enabled i s ∧ Effect i { s with script := l } s') ∨
      (∃ l, fetch s = .reset { s with script := l } ∧ s' = resetBlock { s with script := l }) ∨ s' = s := by
  rw [step] at h
  rcases fetch_cases s with ⟨i, l, hi, hf⟩ | ⟨i, l, hi, hf⟩ | ⟨l, hf⟩ | ⟨-, -, hf⟩ | ⟨e, -, -, hf⟩
  · rw [hf] at h
    exact .inl ⟨i, l, enabled_of_not_microStep hi s, effect_of_exec h⟩
  · rw [hf] at h
    exact .inl ⟨i, l, (enabled_of_decodeSQ hi).2, effect_of_exec h⟩
  · rw [hf] at h
    cases h
    exact .inr (.inl ⟨l, hf, rfl⟩)
  · rw [hf] at h
    cases h
    exact .inr (.inr rfl)
  · rw [hf] at h
    cases h

/-- The engine's step, when the script is empty. -/
theorem step_engine_empty {s : State} {i : Instr} (hs : s.script = [])
    (hi : decodeSQ (sequencerWord s) = .ok i) : step s = exec i s := by
  rw [step, fetch, hs]; simp only [hi]

/-- The engine's step, before the host's next action. -/
theorem step_engine_gap {s : State} {i : Instr} {g : Nat} {a : HostAction} {rest : List HostEntry}
    (hs : s.script = ⟨g + 1, a⟩ :: rest) (hi : decodeSQ (sequencerWord s) = .ok i) :
    step s = exec i { s with script := ⟨g, a⟩ :: rest } := by
  rw [step, fetch, hs]; simp only [hi]

/-- The host's turn: its entry has gap 0, or no micro-step is enabled. -/
theorem fetch_host {s : State} {g : Nat} {a : HostAction} {rest : List HostEntry}
    (hs : s.script = ⟨g, a⟩ :: rest) (h : g = 0 ∨ (s.busy = false ∧ s.t = 0)) :
    fetch s = hostTurn a rest s := by
  rw [fetch, hs]
  rcases g with _ | g
  · rfl
  · rcases h with h | ⟨hb, ht⟩
    · cases h
    · simp only [decodeSQ_of_idle hb ht]

/-- The step of a host transaction. -/
theorem step_transaction {s : State} {g : Nat} {T : Transaction} {rest : List HostEntry}
    (hs : s.script = ⟨g, .transaction T⟩ :: rest) (h : g = 0 ∨ (s.busy = false ∧ s.t = 0)) :
    step s = exec (decodeHT T) { s with script := rest } := by
  rw [step, fetch_host hs h]; rfl

/-- The step of a POLL's read. -/
theorem step_poll {s : State} {g : Nat} {gaps : List Nat} {rest : List HostEntry}
    (hs : s.script = ⟨g, .poll gaps⟩ :: rest) (h : g = 0 ∨ (s.busy = false ∧ s.t = 0)) :
    step s = .next (deliver (statusWord s) { s with script := pollAgain (statusWord s) gaps rest }) := by
  rw [step, fetch_host hs h]; rfl

/-- The step of the driver's STATUS check. -/
theorem step_statusCheck {s : State} {g skip : Nat} {rest : List HostEntry}
    (hs : s.script = ⟨g, .statusCheck skip⟩ :: rest) (h : g = 0 ∨ (s.busy = false ∧ s.t = 0)) :
    step s = .next (deliver (statusWord s) { s with script := afterCheck (statusWord s) skip rest }) := by
  rw [step, fetch_host hs h]; rfl

/-- The step of a RESET. -/
theorem step_reset {s : State} {g : Nat} {rest : List HostEntry}
    (hs : s.script = ⟨g, .reset⟩ :: rest) (h : g = 0 ∨ (s.busy = false ∧ s.t = 0)) :
    step s = .next (resetBlock { s with script := rest }) := by
  rw [step, fetch_host hs h]; rfl

/-- Waiting. -/
theorem step_idle {s : State} (hs : s.script = []) (hb : s.busy = false) (ht : s.t = 0) : step s = .next s := by
  rw [step, fetch, hs]; simp only [decodeSQ_of_idle hb ht]

/-- From a state with the invariants every step answers a next state (60_exceptions.md R240). -/
theorem step_next_of_inv {s : State} (h : Inv s) : ∃ s', step s = .next s' := by
  rw [step]
  rcases fetch_cases s with ⟨i, l, hi, hf⟩ | ⟨i, l, hi, hf⟩ | ⟨l, hf⟩ | ⟨-, -, hf⟩ | ⟨e, hne, he, hf⟩
  · obtain ⟨s', hs'⟩ := effect_exists (enabled_of_not_microStep hi { s with script := l })
    exact ⟨s', by rw [hf]; exact exec_of_effect hs'⟩
  · obtain ⟨s', hs'⟩ := effect_exists (i := i) (s := { s with script := l }) (by
      cases i <;> first | trivial | exact (enabled_of_decodeSQ hi).2)
    exact ⟨s', by rw [hf]; exact exec_of_effect hs'⟩
  · exact ⟨_, by rw [hf]⟩
  · exact ⟨_, by rw [hf]⟩
  · rcases decodeSQ_of_inv h with ⟨-, -, h'⟩ | ⟨-, i, h'⟩
    · rw [he] at h'; cases h'; exact absurd rfl hne
    · rw [he] at h'; cases h'

/-! ## Runs -/

/-- Running k + m steps is running k and then m. -/
theorem run_add {k m : Nat} {s s' : State} (h : Host.Core.run core k s = .next s') :
    Host.Core.run core (k + m) s = Host.Core.run core m s' := by
  induction k generalizing s with
  | zero => cases h; rw [Nat.zero_add]
  | succ k ih =>
    rw [Nat.succ_add]
    simp only [Host.Core.run] at h ⊢
    split at h
    next s1 hs1 => exact ih h
    next => cases h
    next => cases h

/-- One step, and then k more. -/
theorem run_step {k : Nat} {s s1 : State} (h : step s = .next s1) :
    Host.Core.run core (k + 1) s = Host.Core.run core k s1 := by
  have : core.step s = .next s1 := h
  simp only [Host.Core.run, this]

end Sys2Proof.Machine
end

