-- ==== Sys2Proof/Laws/Compression.lean ====
section
/-! SUPPORT. The schedule and the compression function, and what one micro-step does to a block in flight
(42_schedule_expander.md R133, R134; 43_compressor.md R159 to R163; 44_accumulator_sequencer.md R182, R192). -/

namespace Sys2Proof.Machine

/-! ## Vectors by their words -/

theorem hashWords_ext {x y : HashWords} (h : ∀ j : Fin 8, x[j] = y[j]) : x = y :=
  Vector.ext fun i hi => h ⟨i, hi⟩

theorem schedule_ext {x y : Schedule} (h : ∀ i : Fin 64, x[i] = y[i]) : x = y :=
  Vector.ext fun i hi => h ⟨i, hi⟩

theorem block_ext {x y : Block} (h : ∀ i : Fin 16, x[i] = y[i]) : x = y :=
  Vector.ext fun i hi => h ⟨i, hi⟩

/-! ## EXPAND -/

/-- EXPAND(t) leaves every other word (R133). -/
theorem expandWord_ne (t : Fin 64) (W : Schedule) (i : Nat) (hi : i < 64) (h : i ≠ t.val) :
    (expandWord t W)[i] = W[i] := by
  unfold expandWord
  split
  · exact Vector.getElem_set_ne _ _ (Ne.symm h)
  · rfl

/-- EXPAND(t) for t ≤ 15 does nothing (R133). -/
theorem expandWord_low (t : Fin 64) (W : Schedule) (h : t.val < 16) : expandWord t W = W := by
  rw [expandWord, if_neg (by omega)]

/-- The word EXPAND(t) writes (R133). -/
theorem expandWord_self (t : Fin 64) (W : Schedule) (h : 16 ≤ t.val) :
    (expandWord t W)[t] = scheduleWord W t := by
  rw [expandWord, if_pos h]
  exact Vector.getElem_set_self _

/-- The word EXPAND(t) computes depends on words below t only (10_state.md R23). -/
theorem scheduleWord_congr (t : Fin 64) (W W' : Schedule) (ht : 16 ≤ t.val)
    (h : ∀ i (hi : i < 64), i < t.val → W[i] = W'[i]) : scheduleWord W t = scheduleWord W' t := by
  have := t.isLt
  unfold scheduleWord
  rw [h _ _ (by omega), h _ _ (by omega), h _ _ (by omega), h _ _ (by omega)]

/-- EXPAND(0) to EXPAND(n-1) leave the words from n on. -/
theorem expandTo_above (n : Nat) (hn : n ≤ 64) (W : Schedule) (i : Nat) (hi : i < 64) (h : n ≤ i) :
    (expandTo n hn W)[i] = W[i] := by
  induction n with
  | zero => rfl
  | succ n ih =>
    rw [expandTo, expandWord_ne _ _ _ hi (by simp; omega), ih (by omega) (by omega)]

/-- EXPAND(0) to EXPAND(n-1) leave the block's words. -/
theorem expandTo_low (n : Nat) (hn : n ≤ 64) (W : Schedule) (i : Nat) (hi : i < 64) (h : i < 16) :
    (expandTo n hn W)[i] = W[i] := by
  induction n with
  | zero => rfl
  | succ n ih =>
    rw [expandTo]
    by_cases hni : i = n
    · rw [expandWord_low _ _ (by simp; omega), ih (by omega)]
    · rw [expandWord_ne _ _ _ hi (by simpa using hni), ih (by omega)]

/-- A word once written stays. -/
theorem expandTo_stable (n m : Nat) (hn : n ≤ 64) (hm : m ≤ 64) (W : Schedule) (i : Nat) (hi : i < n) (h : n ≤ m) :
    (expandTo m hm W)[i] = (expandTo n hn W)[i] := by
  induction m with
  | zero => omega
  | succ m ih =>
    rcases Nat.lt_or_ge n (m + 1) with hlt | hge
    · rw [expandTo, expandWord_ne _ _ _ (by omega) (by simp; omega), ih (by omega) (by omega)]
    · have : n = m + 1 := by omega
      subst this; rfl

/-- Words 0 to 15 of Expand(B) are the block's (R134). -/
theorem expand_low (B : Block) (i : Nat) (h : i < 16) : (expand B)[i] = B[i] := by
  rw [expand, expandTo_low 64 _ _ i (by omega) h, withBlock_low _ _ _ h]

/-- The recurrence of Expand(B) from word 16 on (R134). -/
theorem expand_high (B : Block) (t : Fin 64) (h : 16 ≤ t.val) : (expand B)[t] = scheduleWord (expand B) t := by
  have ht := t.isLt
  have h1 : (expand B)[t] = (expandTo (t.val + 1) ht (withBlock B (Vector.replicate 64 0)))[t] :=
    expandTo_stable (t.val + 1) 64 ht (Nat.le_refl 64) _ t.val (by omega) (by omega)
  rw [h1, expandTo, expandWord_self _ _ h]
  refine scheduleWord_congr t _ _ h fun i hi hit => ?_
  exact (expandTo_stable t.val 64 (by omega) (Nat.le_refl 64) _ i hit (by omega)).symm

/-! ## A block in flight -/

/-- An accepted BLOCK puts the block in flight (R186, R163). -/
theorem inFlight_of_block (s : State) :
    InFlight s.H s.M (startRounds (loadWorking (loadSchedule s))) := by
  refine ⟨rfl, rfl, rfl, ⟨by simp, ?_⟩, fun i hi => ?_⟩
  · rfl
  · have h16 : i.val < 16 := by
      rcases hi with h | h
      · exact h
      · simp at h
    exact (withBlock_low s.M s.W i.val h16).trans (expand_low s.M i.val h16).symm

/-- Only the host's fields and M differ: the block in flight is the same. -/
theorem InFlight.congr {H0 : HashWords} {B0 : Block} {s s' : State} (h : InFlight H0 B0 s)
    (hH : s'.H = s.H) (hw : s'.work = s.work) (hW : s'.W = s.W) (ht : s'.t = s.t) (hb : s'.busy = s.busy)
    (hp : s'.phase = s.phase) : InFlight H0 B0 s' := by
  cases s; cases s'
  simp only at hH hw hW ht hb hp
  subst hH hw hW ht hb hp
  exact h

/-- ROUND(t) keeps the block in flight, one round further (R159, R163). -/
theorem InFlight.round {H0 : HashWords} {B0 : Block} {s : State} (h : InFlight H0 B0 s) (k : Fin 64)
    (hk : s.t.toNat = k.val) : InFlight H0 B0 (advanceRound (mixRound k (expandAt k s))) := by
  have hk64 := k.isLt
  obtain ⟨hb, hp, hH, ⟨hle, hw⟩, hW⟩ := h
  have ht : (s.t + 1).toNat = k.val + 1 := by
    rw [BitVec.toNat_add, hk]; simp; omega
  have hlive : ∀ i (hi : i < 64), i < k.val → s.W[i] = (expand B0)[i] := fun i hi hik =>
    hW ⟨i, hi⟩ (.inr (by simp; omega))
  have hself : (expandWord k s.W)[k] = (expand B0)[k] := by
    rcases Nat.lt_or_ge k.val 16 with h16 | h16
    · rw [expandWord_low _ _ h16]; exact hW k (.inl h16)
    · rw [expandWord_self _ _ h16, expand_high _ _ h16]
      exact scheduleWord_congr k _ _ h16 hlive
  refine ⟨hb, hp, hH, ⟨by simp; omega, ?_⟩, fun i hi => ?_⟩
  · simp only [advanceRound_work, mixRound_work, expandAt_W, expandAt_work, advanceRound_t, mixRound_t, expandAt_t]
    rw [hself, hw]
    have e : ∀ (n : Nat) (hn : n ≤ 64) (m : Nat) (hm : m ≤ 64), n = m →
        compressTo n hn (.ofWords H0) (expand B0) = compressTo m hm (.ofWords H0) (expand B0) := by
      intro n hn m hm hnm; subst hnm; rfl
    rw [e _ _ k.val (by omega) hk, e _ _ (k.val + 1) (by omega) ht]
    rfl
  · simp only [advanceRound_W, mixRound_W, expandAt_W, advanceRound_t, mixRound_t, expandAt_t] at hi ⊢
    by_cases hik : i = k
    · subst hik; exact hself
    · have hne : i.val ≠ k.val := fun c => hik (Fin.ext c)
      refine (expandWord_ne k s.W i.val i.isLt hne).trans (hW i ?_)
      rcases hi with h | h
      · exact .inl h
      · right; rw [ht] at h; omega

/-- After the last round a..h hold Compress(H0, Expand(B0)) and W holds Expand(B0) (R163, R134). -/
theorem InFlight.done {H0 : HashWords} {B0 : Block} {s : State} (h : InFlight H0 B0 s) (ht : s.t = 64) :
    s.work.toWords = compress H0 (expand B0) ∧ s.W = expand B0 := by
  obtain ⟨-, -, -, ⟨hle, hw⟩, hW⟩ := h
  have h64 : s.t.toNat = 64 := by rw [ht]; rfl
  refine ⟨?_, schedule_ext fun i => hW i (.inr (by have := i.isLt; omega))⟩
  rw [hw, compress]
  congr 1
  have e : ∀ (n : Nat) (hn : n ≤ 64), n = 64 → compressTo n hn (.ofWords H0) (expand B0) =
      compressTo 64 (Nat.le_refl 64) (.ofWords H0) (expand B0) := by
    intro n hn hnm; subst hnm; rfl
  exact e _ _ h64

/-- FOLD leaves the per-block update in the accumulator (R182, R192). -/
theorem InFlight.fold {H0 : HashWords} {B0 : Block} {s : State} (h : InFlight H0 B0 s) (ht : s.t = 64) :
    (endRounds (foldWords s)).H = blockUpdate H0 B0 := by
  simp only [endRounds_H, foldWords_H, blockUpdate, (h.done ht).1, h.2.2.1]

end Sys2Proof.Machine
end

