-- ==== Sys2Proof/Laws/Host.lean ====
section
/-! SUPPORT. The host's functions: the value of a packed word, the length of a padded message, and the first entry of a
scheduled script (41_preprocessor_host.md R112, R115; 20_memory.md R66). -/

namespace Sys2Proof.Machine

/-- The value of `be32` by its bytes (00_scope.md R12). -/
theorem be32_toNat (a b c d : Byte) :
    (be32 a b c d).toNat = a.toNat * 2 ^ 24 + b.toNat * 2 ^ 16 + c.toNat * 2 ^ 8 + d.toNat := by
  have hb := b.isLt
  have hc := c.isLt
  have hd := d.isLt
  change (a ++ b ++ c ++ d).toNat = _
  rw [BitVec.toNat_append, BitVec.toNat_append, BitVec.toNat_append, ← Nat.shiftLeft_add_eq_or_of_lt hd,
    ← Nat.shiftLeft_add_eq_or_of_lt hc, ← Nat.shiftLeft_add_eq_or_of_lt hb]
  simp only [Nat.shiftLeft_eq]
  omega

/-- The length of a padded message by its parts (R112). -/
theorem pad_length (m : List Byte) : (pad m).length = m.length + 1 + padZeros m.length + 8 := by
  simp [pad, be64]; omega

/-- The first entry of a script whose first action is a transaction. -/
theorem schedules_transaction {l : List HostEntry} {T : Transaction} {rest : List HostAction}
    (h : schedules l (.transaction T :: rest)) :
    ∃ g l', l = ⟨g, .transaction T⟩ :: l' ∧ schedules l' rest := by
  unfold schedules at h
  cases l with
  | nil => simp at h
  | cons e l' =>
    obtain ⟨g, a⟩ := e
    simp only [List.map_cons, List.cons.injEq] at h
    cases a with
    | transaction T' =>
      have h1 := h.1
      simp only [HostAction.bare] at h1
      cases h1
      exact ⟨g, l', rfl, h.2⟩
    | poll _ => cases h.1
    | statusCheck _ => cases h.1
    | reset => cases h.1

/-- The first entry of a script whose first action is a POLL. -/
theorem schedules_poll {l : List HostEntry} {rest : List HostAction} (h : schedules l (.poll [] :: rest)) :
    ∃ g gaps l', l = ⟨g, .poll gaps⟩ :: l' ∧ schedules l' rest := by
  unfold schedules at h
  cases l with
  | nil => simp at h
  | cons e l' =>
    obtain ⟨g, a⟩ := e
    simp only [List.map_cons, List.cons.injEq] at h
    cases a with
    | transaction T' => cases h.1
    | poll gaps => exact ⟨g, gaps, l', rfl, h.2⟩
    | statusCheck _ => cases h.1
    | reset => cases h.1

/-- The first entry of a script whose first action is the driver's STATUS check. -/
theorem schedules_statusCheck {l : List HostEntry} {skip : Nat} {rest : List HostAction}
    (h : schedules l (.statusCheck skip :: rest)) :
    ∃ g l', l = ⟨g, .statusCheck skip⟩ :: l' ∧ schedules l' rest := by
  unfold schedules at h
  cases l with
  | nil => simp at h
  | cons e l' =>
    obtain ⟨g, a⟩ := e
    simp only [List.map_cons, List.cons.injEq] at h
    cases a with
    | transaction T' => cases h.1
    | poll gaps => cases h.1
    | statusCheck skip' =>
      have h1 := h.1
      simp only [HostAction.bare] at h1
      cases h1
      exact ⟨g, l', rfl, h.2⟩
    | reset => cases h.1

/-! ## The words of a POLL -/

/-- A POLL's words are read off: any number with bit 0 set, then one with it clear. -/
theorem afterPoll_append (ws : List Word) (w : Word) (rest : List Word) (h : ∀ x ∈ ws, x.getLsbD 0 = true)
    (hw : w.getLsbD 0 = false) : afterPoll (ws ++ w :: rest) = some rest := by
  induction ws with
  | nil => simp only [List.nil_append, afterPoll, hw]; rfl
  | cons x ws ih =>
    simp only [List.cons_append, afterPoll, h x (.head _), if_true]
    exact ih fun y hy => h y (.tail _ hy)

/-- One POLL more, before n others. -/
theorem afterPolls_succ (n : Nat) (ws : List Word) (w : Word) (rest : List Word)
    (h : ∀ x ∈ ws, x.getLsbD 0 = true) (hw : w.getLsbD 0 = false) :
    afterPolls (n + 1) (ws ++ w :: rest) = afterPolls n rest := by
  rw [afterPolls, afterPoll_append ws w rest h hw]

end Sys2Proof.Machine
end

