-- ==== Sys2Proof/Laws/PerInstr.lean ====
section
/-! SUPPORT. The per-instruction family of LAWS.json: decoding the words of a well-formed instruction gives it
back, one lemma a constructor. -/

namespace Sys2Proof.Laws.RoundTrip

/-- Decoding the words of `i` gives `i`, if `i` is well formed. -/
def Statement (i : Instr) : Prop := i.wf = true → decode (encode i) = .ok i

theorem nop : Statement .nop := fun _ => by decide

theorem init : Statement .init := fun _ => by decide

theorem block : Statement .block := fun _ => by decide

theorem final : Statement .final := fun _ => by decide

theorem ctrlIllegal (data : Word) : Statement (.ctrlIllegal data) := fun h => by
  have h' : 3 < data.toNat := by simpa [Instr.wf, legalCommandWord] using h
  simp only [encode, decode, decode_ctrlWrite, decodeCommand_illegal data h']

theorem rdCtrl : Statement .rdCtrl := fun _ => by decide

theorem rdStatus : Statement .rdStatus := fun _ => by decide

theorem wrStatus (data : Word) : Statement (.wrStatus data) := fun _ => by
  simp [encode, decode, decodeHT_htWord]

theorem rdRsv (a : Fin 8) : Statement (.rdRsv a) := fun h =>
  congrArg Except.ok (decodeHT_reserved false a 0 (by simpa [Instr.wf] using h))

theorem wrRsv (a : Fin 8) (data : Word) : Statement (.wrRsv a data) := fun h =>
  congrArg Except.ok (decodeHT_reserved true a data (by simpa [Instr.wf] using h))

theorem rdDigest (j : Fin 8) : Statement (.rdDigest j) := fun _ =>
  congrArg Except.ok (decodeHT_digest false j 0)

theorem wrDigest (j : Fin 8) (data : Word) : Statement (.wrDigest j data) := fun _ =>
  congrArg Except.ok (decodeHT_digest true j data)

theorem rdMsg (i : Fin 16) : Statement (.rdMsg i) := fun _ =>
  congrArg Except.ok (decodeHT_msg false i 0)

theorem wrMsg (i : Fin 16) (v : Word) : Statement (.wrMsg i v) := fun _ =>
  congrArg Except.ok (decodeHT_msg true i v)

theorem round (t : Fin 64) : Statement (.round t) := fun _ => by
  have ht := t.isLt
  refine decodeSQ_round _ t ?_
  simp only [BitVec.toNat_ofNat]
  omega

theorem fold : Statement .fold := fun _ => decodeSQ_fold

end Sys2Proof.Laws.RoundTrip
end

