-- ==== Sys2Proof/Laws/Run.lean ====
section
/-! SUPPORT. Runs of the machine (20_memory.md R65, R66): the invariants under one effect, and how the host's next
action comes to be taken, for any property the engine and the reads keep. Later proofs about a whole script go action
by action and cite these. -/

namespace Sys2Proof.Machine

/-! ## The invariants -/

/-- The codes of 60_exceptions.md R241 are at most 5. -/
theorem errorCode_le (c : CmdError) : (errorCode c).toNat ≤ 5 := by cases c <;> decide

/-- Every effect keeps the invariants of 10_state.md R31. -/
theorem inv_effect {i : Instr} {s s' : State} (hi : Inv s) (he : Effect i s s') : Inv s' := by
  obtain ⟨h1, h2, h3, h4, h5, h6⟩ := hi
  cases he with
  | rejected c hc =>
    refine ⟨by simpa using h1, by simpa using h2, by simpa using h3, by simpa using h4, by simp, ?_⟩
    rw [raise_errcode]; split
    · exact h6
    · exact errorCode_le c
  | init hb => exact ⟨by simp [hb], by simp, by simp, by simp, by simp, by simp⟩
  | round k hb ht =>
    have hk := k.isLt
    refine ⟨by simpa using h1, by simpa using h2, by simp [hb], ?_, by simpa using h5, by simpa using h6⟩
    simp [BitVec.toNat_add]; omega
  | block hb hp => exact ⟨by simp, by simp, by simp, by simp, by simpa using h5, by simpa using h6⟩
  | fold hb ht =>
    refine ⟨by simp, by simp, by simp, by simp, by simpa using h5, by simpa using h6⟩
  | final hb hp => exact ⟨by simpa using hb, by simpa using hb, by simpa using h3, by simpa using h4, by simpa using h5, by simpa using h6⟩
  | _ => exact ⟨by simpa using h1, by simpa using h2, by simpa using h3, by simpa using h4, by simpa using h5, by simpa using h6⟩

/-- No operation touches the host's script. -/
theorem effect_script {i : Instr} {s s' : State} (he : Effect i s s') : s'.script = s.script := by
  cases he <;> simp

/-! ## Reaching a state -/

/-- Some number of steps leads from one state to the other. -/
def Reach (s s' : State) : Prop := ∃ n, Host.Core.run core n s = .next s'

theorem Reach.refl (s : State) : Reach s s := ⟨0, rfl⟩

theorem Reach.trans {s s1 s2 : State} (h : Reach s s1) (h' : Reach s1 s2) : Reach s s2 := by
  obtain ⟨n, hn⟩ := h
  obtain ⟨m, hm⟩ := h'
  exact ⟨n + m, (run_add hn).trans hm⟩

theorem Reach.step {s s1 : State} (h : step s = .next s1) : Reach s s1 := ⟨1, (run_step h).trans rfl⟩

/-- One more step at the end of a run. -/
theorem run_snoc {k : Nat} {s s1 s2 : State} (h : Host.Core.run core k s = .next s1) (h2 : step s1 = .next s2) :
    Host.Core.run core (k + 1) s = .next s2 := by
  rw [run_add h, run_step h2]; rfl

/-- A property that reads, the script's change and the engine's micro-steps keep. -/
structure Kept (J : State → Prop) : Prop where
  script : ∀ s l, J s → J { s with script := l }
  deliver : ∀ s v, J s → J (deliver v s)
  engine : ∀ s i s', J s → isMicroStep i = true → Effect i s s' → J s'

/-- While busy the engine has a step (70_reset_and_hazards.md R285); it advances the round counter or is the FOLD. -/
theorem engine_next {s : State} (hi : Inv s) (hb : s.busy = true) (l : List HostEntry) :
    ∃ i s', decodeSQ (sequencerWord s) = .ok i ∧ isMicroStep i = true ∧ Effect i { s with script := l } s' ∧
      s'.script = l ∧ s'.replies = s.replies ∧ (s'.busy = false ∨ (s'.busy = true ∧ s'.t.toNat = s.t.toNat + 1)) := by
  rcases decodeSQ_of_inv hi with ⟨hb', -⟩ | ⟨-, i, h⟩
  · rw [hb] at hb'; cases hb'
  obtain ⟨hm, hen⟩ := enabled_of_decodeSQ h
  obtain ⟨s', hs'⟩ := effect_exists (i := i) (s := { s with script := l }) (by cases i <;> exact hen)
  refine ⟨i, s', h, hm, hs', ?_⟩
  cases hs' with
  | rejected c hc => cases i <;> simp [isMicroStep, rejection] at hm hc
  | read v hv => cases i <;> simp [isMicroStep, readValue] at hm hv
  | round k hb ht =>
    have hk := k.isLt
    have e : (s.t + 1).toNat = s.t.toNat + 1 := by
      rw [BitVec.toNat_add]; simp at ht ⊢; omega
    exact ⟨rfl, rfl, .inr ⟨hb, e⟩⟩
  | fold hb ht => exact ⟨rfl, rfl, .inl rfl⟩
  | _ => cases hm

/-- The engine takes its steps until the host's next action has its turn; with 65 or more to come the block is idle by
then. No word is read. -/
theorem to_turn {J : State → Prop} (hJ : Kept J) (g : Nat) :
    ∀ (s : State) (a : HostAction) (rest : List HostEntry), Inv s → J s → s.script = ⟨g, a⟩ :: rest →
    ∃ s' g', Reach s s' ∧ Inv s' ∧ J s' ∧ s'.script = ⟨g', a⟩ :: rest ∧ s'.replies = s.replies ∧
      (g' = 0 ∨ (s'.busy = false ∧ s'.t = 0)) ∧ (65 ≤ g + s.t.toNat → s'.busy = false) ∧
      (s.busy = false → s' = s) := by
  induction g with
  | zero =>
    intro s a rest hi hj hs
    refine ⟨s, 0, .refl s, hi, hj, hs, rfl, .inl rfl, fun h => ?_, fun _ => rfl⟩
    have := hi.2.2.2.1; omega
  | succ g ih =>
    intro s a rest hi hj hs
    cases hb : s.busy with
    | false => exact ⟨s, _, .refl s, hi, hj, hs, rfl, .inr ⟨hb, hi.2.2.1 hb⟩, fun _ => hb, fun _ => rfl⟩
    | true =>
      obtain ⟨i, s1, hd, hm, he, hl, hr1, ht⟩ := engine_next hi hb (⟨g, a⟩ :: rest)
      have h1 : step s = .next s1 := by rw [step_engine_gap hs hd]; exact exec_of_effect he
      have hi1 : Inv s1 := inv_effect (s := { s with script := ⟨g, a⟩ :: rest }) hi he
      obtain ⟨s2, g2, hr, hi2, hj2, hs2, hr2, ho, hc, hq⟩ :=
        ih s1 a rest hi1 (hJ.engine _ _ _ (hJ.script _ _ hj) hm he) hl
      refine ⟨s2, g2, (Reach.step h1).trans hr, hi2, hj2, hs2, hr2.trans hr1, ho, fun h => ?_, fun c => by cases c⟩
      rcases ht with hb1 | ⟨hb1, ht⟩
      · rw [hq hb1]; exact hb1
      · exact hc (by omega)

/-- A POLL that reads busy = 0 is done. -/
theorem pollAgain_idle {s : State} (hb : s.busy = false) (gaps : List Nat) (rest : List HostEntry) :
    pollAgain (statusWord s) gaps rest = rest := by
  unfold pollAgain; rw [statusWord_busy, hb]; rfl

/-- A POLL that reads busy = 1 with a list of gaps reads again after the next of them. -/
theorem pollAgain_cons {s : State} (hb : s.busy = true) (g : Nat) (gs : List Nat) (rest : List HostEntry) :
    pollAgain (statusWord s) (g :: gs) rest = ⟨g, .poll gs⟩ :: rest := by
  unfold pollAgain; rw [statusWord_busy, hb]; rfl

/-- A POLL that reads busy = 1 with no gap left reads again after a block's micro-steps (log 7). -/
theorem pollAgain_nil {s : State} (hb : s.busy = true) (rest : List HostEntry) :
    pollAgain (statusWord s) [] rest = ⟨65, .poll []⟩ :: rest := by
  unfold pollAgain; rw [statusWord_busy, hb]; rfl

/-- The driver's check with no error recorded. -/
theorem afterCheck_ok {s : State} (he : s.err = false) (skip : Nat) (rest : List HostEntry) :
    afterCheck (statusWord s) skip rest = rest := by
  unfold afterCheck; rw [statusWord_err, he]; rfl

/-- The driver's check with an error recorded. -/
theorem afterCheck_error {s : State} (he : s.err = true) (skip : Nat) (rest : List HostEntry) :
    afterCheck (statusWord s) skip rest = rest.drop skip := by
  unfold afterCheck; rw [statusWord_err, he]; rfl

/-- A POLL ends, with the block idle (45_register_access.md R212); its words have bit 0 set, but for the last. -/
theorem poll_done {J : State → Prop} (hJ : Kept J) (gaps : List Nat) :
    ∀ (s : State) (g : Nat) (rest : List HostEntry), Inv s → J s → s.script = ⟨g, .poll gaps⟩ :: rest →
    ∃ s' ws w, Reach s s' ∧ Inv s' ∧ J s' ∧ s'.script = rest ∧ s'.busy = false ∧
      s'.replies = s.replies ++ (ws ++ [w]) ∧ (∀ x ∈ ws, x.getLsbD 0 = true) ∧ w.getLsbD 0 = false := by
  have idle : ∀ (gaps : List Nat) (s : State) (g : Nat) (rest : List HostEntry), Inv s → J s →
      s.script = ⟨g, .poll gaps⟩ :: rest → s.busy = false →
      ∃ s' ws w, Reach s s' ∧ Inv s' ∧ J s' ∧ s'.script = rest ∧ s'.busy = false ∧
        s'.replies = s.replies ++ (ws ++ [w]) ∧ (∀ x ∈ ws, x.getLsbD 0 = true) ∧ w.getLsbD 0 = false := by
    intro gaps s g rest hi hj hs hb
    have h1 := step_poll hs (.inr ⟨hb, hi.2.2.1 hb⟩)
    rw [pollAgain_idle hb] at h1
    exact ⟨_, [], statusWord s, .step h1, hi, hJ.deliver _ _ (hJ.script _ _ hj), rfl, hb, rfl, by simp,
      (statusWord_busy s).trans hb⟩
  have again : ∀ (s s1 s2 : State) (r : Reach s s2) (rest : List HostEntry), s1.busy = true →
      s2.replies = s.replies ++ [statusWord s1] →
      (∃ s' ws w, Reach s2 s' ∧ Inv s' ∧ J s' ∧ s'.script = rest ∧ s'.busy = false ∧
        s'.replies = s2.replies ++ (ws ++ [w]) ∧ (∀ x ∈ ws, x.getLsbD 0 = true) ∧ w.getLsbD 0 = false) →
      ∃ s' ws w, Reach s s' ∧ Inv s' ∧ J s' ∧ s'.script = rest ∧ s'.busy = false ∧
        s'.replies = s.replies ++ (ws ++ [w]) ∧ (∀ x ∈ ws, x.getLsbD 0 = true) ∧ w.getLsbD 0 = false := by
    intro s s1 s2 r rest hb h2 ⟨s', ws, w, hr, hi, hj, hs, hb', hrep, hws, hw⟩
    refine ⟨s', statusWord s1 :: ws, w, r.trans hr, hi, hj, hs, hb', by rw [hrep, h2]; simp, fun x hx => ?_, hw⟩
    rcases List.mem_cons.1 hx with rfl | hx
    · exact (statusWord_busy s1).trans hb
    · exact hws x hx
  induction gaps with
  | nil =>
    intro s g rest hi hj hs
    obtain ⟨s1, g1, hr, hi1, hj1, hs1, hrep, ho, -, -⟩ := to_turn hJ g s _ rest hi hj hs
    cases hb : s1.busy with
    | false =>
      obtain ⟨s2, ws, w, hr2, hi2, hj2, hs2, hb2, hrep2, h⟩ := idle _ _ _ _ hi1 hj1 hs1 hb
      exact ⟨s2, ws, w, hr.trans hr2, hi2, hj2, hs2, hb2, hrep ▸ hrep2, h⟩
    | true =>
      have h1 := step_poll hs1 (.inl (ho.resolve_right fun c => by rw [hb] at c; cases c.1))
      rw [pollAgain_nil hb] at h1
      refine again s s1 _ (hr.trans (.step h1)) rest hb (congrArg (· ++ [statusWord s1]) hrep) ?_
      obtain ⟨s2, g2, hr2, hi2, hj2, hs2, hrep2, -, hc, -⟩ :=
        to_turn hJ 65 (deliver (statusWord s1) { s1 with script := ⟨65, .poll []⟩ :: rest }) (.poll []) rest hi1
          (hJ.deliver _ _ (hJ.script _ _ hj1)) rfl
      obtain ⟨s3, ws, w, hr3, hi3, hj3, hs3, hb3, hrep3, h⟩ := idle _ _ _ _ hi2 hj2 hs2 (hc (by omega))
      exact ⟨s3, ws, w, hr2.trans hr3, hi3, hj3, hs3, hb3, by rw [hrep3, hrep2], h⟩
  | cons x xs ih =>
    intro s g rest hi hj hs
    obtain ⟨s1, g1, hr, hi1, hj1, hs1, hrep, ho, -, -⟩ := to_turn hJ g s _ rest hi hj hs
    cases hb : s1.busy with
    | false =>
      obtain ⟨s2, ws, w, hr2, hi2, hj2, hs2, hb2, hrep2, h⟩ := idle _ _ _ _ hi1 hj1 hs1 hb
      exact ⟨s2, ws, w, hr.trans hr2, hi2, hj2, hs2, hb2, hrep ▸ hrep2, h⟩
    | true =>
      have h1 := step_poll hs1 (.inl (ho.resolve_right fun c => by rw [hb] at c; cases c.1))
      rw [pollAgain_cons hb] at h1
      exact again s s1 _ (hr.trans (.step h1)) rest hb (congrArg (· ++ [statusWord s1]) hrep)
        (ih (deliver (statusWord s1) { s1 with script := ⟨x, .poll xs⟩ :: rest }) x rest hi1
          (hJ.deliver _ _ (hJ.script _ _ hj1)) rfl)

/-- A transaction is taken, from a state that still has the property; no word was read before it. -/
theorem transaction_done {J : State → Prop} (hJ : Kept J) {s : State} {g : Nat} {T : Transaction}
    {rest : List HostEntry} (hi : Inv s) (hj : J s) (hs : s.script = ⟨g, .transaction T⟩ :: rest) :
    ∃ s0 s', J s0 ∧ Inv s0 ∧ s0.script = rest ∧ s0.replies = s.replies ∧ Effect (decodeHT T) s0 s' ∧ Reach s s' ∧
      (s.busy = false → s0 = { s with script := rest }) := by
  obtain ⟨s1, g1, hr, hi1, hj1, hs1, hrep, ho, -, hq⟩ := to_turn hJ g s _ rest hi hj hs
  have h1 := step_transaction hs1 ho
  obtain ⟨s', he⟩ := effect_exists (enabled_of_not_microStep (isMicroStep_decodeHT T) { s1 with script := rest })
  rw [exec_of_effect he] at h1
  exact ⟨{ s1 with script := rest }, s', hJ.script _ _ hj1, hi1, rfl, hrep, he, hr.trans (.step h1),
    fun h => by rw [hq h]⟩

end Sys2Proof.Machine
end

