-- ==== Sys2Proof/Tests/Slice0.lean ====
section
/-! SUPPORT. The model's own tests: small checks against values of spec/95_test_vectors.md and the worked examples of
the rules, and for each statement with hypotheses a state and operands that meet them. -/

namespace Sys2Proof.Machine.Tests

open Sys2Proof Sys2Proof.Machine

-- One test after the other: each `decide +kernel` started at once would take a thread's stack of its own.
set_option Elab.async false

/-! ## The start states of 95_test_vectors.md section 10 -/

/-- The "abc" block (41_preprocessor_host.md R115). -/
def abcBlock : Block := (Vector.replicate 16 0x00000000).set 0 0x61626380 |>.set 15 0x00000018

/-- The "abc" digest's words (95_test_vectors.md S2). -/
def abcDigest : HashWords :=
  #v[0xba7816bf, 0x8f01cfea, 0x414140de, 0x5dae2223, 0xb00361a3, 0x96177a9c, 0xb410ff61, 0xf20015ad]

/-- State ACCUM. -/
def sAccum : State := { State.reset with M := abcBlock, H := abcDigest, phase := .accum }

/-- States BUSY0 and BUSY64, and those between, by the round counter. -/
def sBusy (t : BitVec 7) : State := { State.reset with M := abcBlock, phase := .accum, busy := true, t := t }

/-- State FINAL. -/
def sFinal : State := { sAccum with phase := .final }

/-- The five start states, in the table's order. -/
def starts : List State := [State.reset, sAccum, sBusy 0, sBusy 64, sFinal]

/-- STATUS after an operation. -/
def statusAfter (i : Instr) (s : State) : Option Word :=
  match exec i s with
  | .next s' => some (statusWord s')
  | .fault _ => none
  | .refused _ => none

/-- The last word an operation returned to the host. -/
def returned (i : Instr) (s : State) : Option Word :=
  match exec i s with
  | .next s' => s'.replies.getLast?
  | .fault _ => none
  | .refused _ => none

/-- One field of the state after a step. -/
def afterStep {α : Type} (f : State → α) (s : State) : Option α :=
  match step s with
  | .next s' => some (f s')
  | .fault _ => none
  | .refused _ => none

/-! ## Well-formedness: the ill-formed terms are refused -/

theorem test_wf_refuses_legal_word_as_illegal : (Instr.ctrlIllegal 0x00000003).wf = false := by decide

theorem test_wf_refuses_ctrl_as_reserved : (Instr.rdRsv 0).wf = false ∧ (Instr.rdRsv 1).wf = false := by decide

theorem test_wf_refuses_status_write_as_reserved :
    (Instr.wrRsv 0 0x5).wf = false ∧ (Instr.wrRsv 1 0x5).wf = false := by decide

theorem test_wf_accepts_the_first_words_past_each_check :
    (Instr.ctrlIllegal 0x00000004).wf = true ∧ (Instr.rdRsv 2).wf = true ∧ (Instr.wrRsv 7 0).wf = true := by decide

/-! ## Decoding, one word a constructor, bit by bit from 30_encoding.md R80, R85 (we, addr, data; busy, t) -/

theorem test_decode_nop : decodeHT (0b1_00000_00000000000000000000000000000000) = .nop := by decide

theorem test_decode_init : decodeHT (0b1_00000_00000000000000000000000000000001) = .init := by decide

theorem test_decode_block : decodeHT (0b1_00000_00000000000000000000000000000010) = .block := by decide

theorem test_decode_final : decodeHT (0b1_00000_00000000000000000000000000000011) = .final := by decide

theorem test_decode_ctrlIllegal :
    decodeHT (0b1_00000_10000000000000000000000000000001) = .ctrlIllegal 0x80000001 := by decide

theorem test_decode_rdCtrl : decodeHT (0b0_00000_11011110101011011011111011101111) = .rdCtrl := by decide

theorem test_decode_rdStatus : decodeHT (0b0_00001_00000000000000000000000000000000) = .rdStatus := by decide

theorem test_decode_wrStatus :
    decodeHT (0b1_00001_00000000000000000000000000000101) = .wrStatus 0x00000005 := by decide

theorem test_decode_rdRsv : decodeHT (0b0_00111_00000000000000000000000000000000) = .rdRsv 7 := by decide

theorem test_decode_wrRsv : decodeHT (0b1_00101_00000000000000000000000000000001) = .wrRsv 5 0x00000001 := by decide

theorem test_decode_rdDigest : decodeHT (0b0_01011_00000000000000000000000000000000) = .rdDigest 3 := by decide

theorem test_decode_wrDigest :
    decodeHT (0b1_01011_00010010001101000101011001111000) = .wrDigest 3 0x12345678 := by decide

theorem test_decode_rdMsg : decodeHT (0b0_11110_00000000000000000000000000000000) = .rdMsg 14 := by decide

theorem test_decode_wrMsg :
    decodeHT (0b1_11111_00000000000000000000000000011000) = .wrMsg 15 0x00000018 := by decide

theorem test_decode_round : decodeSQ (0b1_0000101) = .ok (.round 5) := by decide

theorem test_decode_fold : decodeSQ (0b1_1000000) = .ok .fold := by decide

theorem test_decode_unreachable_words :
    decodeSQ 0xC1 = .error .unreachableStep ∧ decodeSQ 0xFF = .error .unreachableStep ∧
    decodeSQ 0x01 = .error .unreachableStep ∧ decodeSQ 0x7F = .error .unreachableStep ∧
    decodeSQ 0x00 = .error .noEngineStep := by decide

theorem test_decodeTableWord :
    decodeTableWord 40 0x2000000002 = some .block ∧ decodeTableWord 8 0xC0 = some .fold ∧
    decodeTableWord 40 0x4000000000 = none := by decide

/-! ## Commands in every start state (95_test_vectors.md V-CMD) -/

theorem test_nop_status : starts.map (statusAfter .nop) =
    [some 0x00000000, some 0x00000002, some 0x00000003, some 0x00004003, some 0x00000004] := by decide +kernel

theorem test_init_status : starts.map (statusAfter .init) =
    [some 0x00000000, some 0x00000000, some 0x0000002b, some 0x0000402b, some 0x00000000] := by decide +kernel

theorem test_block_status : starts.map (statusAfter .block) =
    [some 0x00000003, some 0x00000003, some 0x0000002b, some 0x0000402b, some 0x0000003c] := by decide +kernel

theorem test_final_status : starts.map (statusAfter .final) =
    [some 0x00000038, some 0x00000004, some 0x0000002b, some 0x0000402b, some 0x0000003c] := by decide +kernel

theorem test_ctrlIllegal_status : starts.map (statusAfter (.ctrlIllegal 0x80000001)) =
    [some 0x00000018, some 0x0000001a, some 0x0000001b, some 0x0000401b, some 0x0000001c] := by decide +kernel

/-- V-ERR, first run: the second error, FINAL's SEQUENCE, leaves the first code. -/
theorem test_second_error_keeps_the_first_code :
    statusAfter .final { State.reset with err := true, errcode := 1 } = some 0x00000018 := by decide +kernel

/-- V-ERR, second run: a rejected INIT does not clear an earlier error. -/
theorem test_rejected_init_keeps_the_record :
    statusAfter .init { sBusy 0 with err := true, errcode := 1 } = some 0x0000001b := by decide +kernel

/-- R185: an accepted INIT in FINAL loads IV again. -/
theorem test_init_loads_iv :
    (match exec .init sFinal with | .next s => some (s.H[0]) | _ => none) = some 0x6a09e667 := by decide +kernel

/-- R186: BLOCK copies M into W and H into a..h. -/
theorem test_block_copies :
    (match exec .block { sAccum with phase := .idle } with
      | .next s => [s.W[0], s.W[15], s.W[16], s.work.a, s.work.h]
      | _ => []) = [0x61626380, 0x00000018, 0x00000000, 0xba7816bf, 0xf20015ad] := by decide +kernel

/-! ## Reads and other writes (V-REG) -/

theorem test_rdCtrl_value : starts.map (returned .rdCtrl) = List.replicate 5 (some 0x00000000) := by decide +kernel

theorem test_rdStatus_value : starts.map (returned .rdStatus) =
    [some 0x00000000, some 0x00000002, some 0x00000003, some 0x00004003, some 0x00000004] := by decide +kernel

theorem test_rdRsv_value : starts.map (returned (.rdRsv 7)) = List.replicate 5 (some 0x00000000) := by decide +kernel

theorem test_rdDigest0_value : starts.map (returned (.rdDigest 0)) =
    [some 0x00000000, some 0x00000000, some 0x00000000, some 0x00000000, some 0xba7816bf] := by decide +kernel

theorem test_rdDigest7_value : returned (.rdDigest 7) sFinal = some 0xf20015ad := by decide +kernel

theorem test_rdMsg15_value : starts.map (returned (.rdMsg 15)) =
    [some 0x00000000, some 0x00000018, some 0x00000018, some 0x00000018, some 0x00000018] := by decide +kernel

theorem test_wrStatus_status : starts.map (statusAfter (.wrStatus 0x0)) =
    [some 0x00000048, some 0x0000004a, some 0x0000004b, some 0x0000404b, some 0x0000004c] := by decide +kernel

theorem test_wrDigest_status : starts.map (statusAfter (.wrDigest 3 0x12345678)) =
    [some 0x00000048, some 0x0000004a, some 0x0000004b, some 0x0000404b, some 0x0000004c] := by decide +kernel

/-- R215: after INIT, `wr DIGEST3` leaves H[3]. -/
theorem test_wrDigest_keeps_h3 :
    (match exec (.wrDigest 3 0x12345678) State.reset with | .next s => some (s.H[3]) | _ => none) =
      some 0xa54ff53a := by decide +kernel

theorem test_wrRsv_status : starts.map (statusAfter (.wrRsv 7 0xFFFFFFFF)) =
    [some 0x00000058, some 0x0000005a, some 0x0000005b, some 0x0000405b, some 0x0000005c] := by decide +kernel

theorem test_wrMsg_status : starts.map (statusAfter (.wrMsg 0 0xdeadbeef)) =
    [some 0x00000000, some 0x00000002, some 0x00000003, some 0x00004003, some 0x00000004] := by decide +kernel

/-- R216, while busy: only M changes. -/
theorem test_wrMsg_value :
    (match exec (.wrMsg 15 0xdeadbeef) (sBusy 0) with
      | .next s => [s.M[14], s.M[15], s.W[15]]
      | _ => []) = [0x00000000, 0xdeadbeef, 0x00000000] := by decide +kernel

/-! ## Word functions (sections 3.1, 3.2) -/

theorem test_rotr : rotr 0x12345678 18 = 0x159e048d ∧ rotr 0x00000001 7 = 0x02000000 := by decide

theorem test_shr : shr 0x80000000 3 = 0x10000000 ∧ shr 0xFFFFFFFF 10 = 0x003fffff := by decide

theorem test_sigma0 : sigma0 0x61626380 = 0x940e90ef ∧ sigma0 0x12345678 = 0xe7fce6ee := by decide

theorem test_sigma1 : sigma1 0x61626380 = 0x7da86405 ∧ sigma1 0x12345678 = 0xa1f78649 := by decide

theorem test_bigSigma0 : bigSigma0 0x6a09e667 = 0xce20b47e ∧ bigSigma0 0x00000001 = 0x40080400 := by decide

theorem test_bigSigma1 : bigSigma1 0x510e527f = 0x3587272b ∧ bigSigma1 0x00000001 = 0x04200080 := by decide

theorem test_ch : ch 0x510e527f 0x9b05688c 0x1f83d9ab = 0x1f85c98c := by decide

theorem test_maj : maj 0x6a09e667 0xbb67ae85 0x3c6ef372 = 0x3a6fe667 := by decide

/-- Section 2: the checksums over the two ROMs. -/
theorem test_rom_checksums :
    romK.toList.foldl (· ^^^ ·) 0 = 0x95c49cf5 ∧ romK.toList.foldl (· + ·) 0 = 0x941d1755 ∧
    romIV.toList.foldl (· ^^^ ·) 0 = 0xc62760eb ∧ romIV.toList.foldl (· + ·) 0 = 0x6ea8df67 := by decide +kernel

/-! ## The engine -/

/-- ROUND(0) of the "abc" block (R159; section 5, row 0). -/
theorem test_round0_abc :
    (match exec (.round 0) { sBusy 0 with W := withBlock abcBlock State.reset.W, work := .ofWords romIV } with
      | .next s => some (s.work, s.t)
      | _ => none) =
      some (⟨0x5d6aebcd, 0x6a09e667, 0xbb67ae85, 0x3c6ef372, 0xfa2a4622, 0x510e527f, 0x9b05688c, 0x1f83d9ab⟩, 1) := by
  decide +kernel

/-- ROUND(17) expands W[17] of the "abc" block before it is used (section 4). -/
theorem test_round17_expands :
    (match exec (.round 17) { sBusy 17 with W := (withBlock abcBlock State.reset.W).set 16 0x61626380 } with
      | .next s => some (s.W[17], s.t)
      | _ => none) = some (0x000f0000, 18) := by decide +kernel

/-- FOLD wraps each word on its own (section 6, third row). -/
theorem test_fold_wraps_each_word :
    (match exec .fold { sBusy 64 with
        H := #v[0xffffffff, 0, 0xffffffff, 0, 0xffffffff, 0, 0xffffffff, 0], work := ⟨1, 1, 1, 1, 1, 1, 1, 1⟩ } with
      | .next s => some (s.H, statusWord s)
      | _ => none) = some (#v[0, 1, 0, 1, 0, 1, 0, 1], 0x00000002) := by decide +kernel

/-- FOLD of the "abc" block (section 6, first row). -/
theorem test_fold_abc :
    (match exec .fold { sBusy 64 with
        work := ⟨0x506e3058, 0xd39a2165, 0x04d24d6c, 0xb85e2ce9, 0x5ef50f24, 0xfb121210, 0x948d25b6, 0x961f4894⟩ } with
      | .next s => some s.H
      | _ => none) = some abcDigest := by decide +kernel

/-- Section 4, corner cases: the schedule of the all-ones block. -/
theorem test_expand_all_ones :
    (expand (Vector.replicate 16 0xFFFFFFFF))[16] = 0x203ffffc ∧
    (expand (Vector.replicate 16 0xFFFFFFFF))[63] = 0x4bceaf09 := by decide +kernel

/-- Section 5, corner cases: Compress of the zero state over the zero schedule. -/
theorem test_compress_zero :
    compress (Vector.replicate 8 0) (Vector.replicate 64 0) =
      #v[0x7ca51614, 0x425c3ba8, 0xce54dd2f, 0xc2020ae7, 0xb6e574d1, 0x98136d0f, 0xae7e26cc, 0xbf0be7a6] := by
  decide +kernel

/-! ## Steps: placing a word, polling, reset -/

/-- The very next step after reset runs the placed word: BLOCK, and ROUND(0). -/
theorem test_withFetchWord :
    afterStep statusWord (State.reset.withFetchWord 40 0x2000000002) = some 0x00000003 ∧
    afterStep statusWord (State.reset.withFetchWord 8 0x80) = some 0x00000101 := by decide +kernel

/-- P6: RESET in the middle of a block, after ten rounds. -/
theorem test_reset_in_a_block :
    afterStep (fun s => (statusWord s, s.M[0], s.H[0])) { sBusy 10 with script := [⟨0, .reset⟩] } =
      some (0x00000000, 0x00000000, 0x6a09e667) := by decide +kernel

/-- The lazy schedule: a POLL that reads BUSY = 1 gives the engine one step (section 11). -/
theorem test_poll_reads_busy :
    afterStep (fun s => (s.replies, s.script)) { sBusy 5 with script := lazySchedule [.poll []] } =
      some ([0x00000503], [⟨1, .poll (List.replicate 64 1)⟩]) := by decide +kernel

/-- R118: the driver reads STATUS; with ERR set the reads of RDDIGEST are not issued, else they are. -/
theorem test_status_check_skips_the_digest :
    afterStep (fun s => (s.replies, s.script.length))
      { sFinal with err := true, errcode := 2, script := eagerSchedule (.statusCheck 8 :: expandLine .rddigest) } =
        some ([0x0000002c], 0) ∧
    afterStep (fun s => (s.replies, s.script.length))
      { sFinal with script := eagerSchedule (.statusCheck 8 :: expandLine .rddigest) } =
        some ([0x00000004], 8) := by decide +kernel

/-! ## The host's functions (section 7) -/

/-- V-PAD-55 and V-PAD-56: zero bytes and blocks. -/
theorem test_pad_corners :
    padZeros 0 = 55 ∧ padZeros 55 = 0 ∧ padZeros 56 = 63 ∧
    blockCount 55 = 1 ∧ blockCount 56 = 2 ∧ blockCount 119 = 2 ∧ blockCount 120 = 3 := by decide

/-- V-PAD-3: the block of "abc". -/
theorem test_pad_abc : messageBlocks [0x61, 0x62, 0x63] = [abcBlock] := by decide +kernel

/-- S2: the "abc" digest. -/
theorem test_sha256_abc : hashBlocks [abcBlock] = abcDigest := by decide +kernel

/-- R193: byte 0 and byte 31 of a digest. -/
theorem test_serialize : (serialize abcDigest)[0] = 0xba ∧ (serialize abcDigest)[31] = 0xad := by decide +kernel

/-- R118: one block, so two POLLs; a POLL that reads twice; STATUS with bit 3 set, and with it clear the digest. -/
theorem test_hashResult :
    hashResult [] [0x00000000, 0x00000003, 0x00000002, 0x0000002c] = some (.error .errorRecorded) ∧
    hashResult [] ([0x00000000, 0x00000003, 0x00000002, 0x00000004] ++ abcDigest.toList) =
      some (.ok (serialize abcDigest)) ∧
    hashResult [] [0x00000000, 0x00000002, 0x00000004] = none := by decide +kernel

/-- R95: the text of two lines, a comment and a raw address among them (R97). -/
theorem test_parse : parseScript
    (['w', 'r', ' ', 'M', 'S', 'G', '1', '5', ',', ' ', '0', 'x', '1', '8', ' ', ';', 'x', '\n'] ++
      ['r', 'd', ' ', '@', '0', 'x', '0', '5']) = some [.wr (msgAddr 15) 0x18, .rd 0x05] := by decide +kernel

/-! ## Witnesses: a state and operands that meet the hypotheses of each statement, clause by clause -/

/-- `sBusy 64` with the schedule and the working registers of a block whose 64 rounds are done. -/
def sDone : State :=
  { sBusy 64 with W := expand abcBlock, work := compressTo 64 (Nat.le_refl 64) (.ofWords romIV) (expand abcBlock) }

/-- The block in flight at its last point. -/
theorem inFlight_sDone : InFlight romIV abcBlock sDone :=
  ⟨rfl, rfl, rfl, ⟨Nat.le_refl 64, rfl⟩, fun _ _ => rfl⟩

theorem witness_DecodeOfEncodeIsTheInstruction :
    (Instr.ctrlIllegal 0xFFFFFFFF).wf = true ∧ (Instr.rdRsv 7).wf = true ∧ (Instr.wrRsv 2 0).wf = true ∧
    (Instr.round 63).wf = true := by decide

theorem witness_DecodedInstructionsAreWellFormed : decodeSQ 0xBF = .ok (.round 63) := by decide

theorem witness_ReadDataFieldIsIgnored :
    htWe 0x00DEADBEEF = false ∧ htWe 0x0000000000 = false ∧ htAddr 0x00DEADBEEF = htAddr 0x0000000000 ∧
    htWe 0x3F00000018 = true := by decide

theorem witness_SequencerWordEnablesMicroStep :
    (0 : BitVec 7).toNat = (0 : Fin 64).val ∧ (63 : BitVec 7).toNat = (63 : Fin 64).val := by decide

theorem witness_StepRunsTheHostTransaction :
    (∃ s : State, s.script = [⟨0, .transaction 0x3061626380⟩] ∧ s.busy = true) ∧
    ∃ s : State, s.script = [⟨3, .transaction 0x3061626380⟩] ∧ s.busy = false ∧ s.t = 0 :=
  ⟨⟨{ sBusy 5 with script := [⟨0, .transaction 0x3061626380⟩] }, rfl, rfl⟩,
   ⟨{ sAccum with script := [⟨3, .transaction 0x3061626380⟩] }, rfl, rfl, rfl⟩⟩

theorem witness_StepRunsTheMicroStep :
    (sBusy 5).script = [] ∧ decode (.sq (sqWord (sBusy 5).busy (sBusy 5).t)) = .ok (.round 5) ∧
    ∃ s : State, s.script = [⟨1, .poll []⟩] ∧ decode (.sq (sqWord s.busy s.t)) = .ok .fold :=
  ⟨rfl, by decide, { sBusy 64 with script := [⟨1, .poll []⟩] }, rfl, by decide⟩

theorem witness_PollReadsStatusUntilIdle :
    (∃ s : State, s.script = [⟨0, .poll [2]⟩] ∧ s.busy = false) ∧
    (∃ s : State, s.script = [⟨0, .poll [2]⟩] ∧ s.busy = true) ∧
    (∃ s : State, s.script = [⟨0, .poll []⟩] ∧ s.busy = true) ∧
    ∃ s : State, s.script = [⟨3, .poll [2]⟩] ∧ s.busy = false ∧ s.t = 0 :=
  ⟨⟨{ sAccum with script := [⟨0, .poll [2]⟩] }, rfl, rfl⟩, ⟨{ sBusy 0 with script := [⟨0, .poll [2]⟩] }, rfl, rfl⟩,
   ⟨{ sBusy 64 with script := [⟨0, .poll []⟩] }, rfl, rfl⟩, { sAccum with script := [⟨3, .poll [2]⟩] }, rfl, rfl, rfl⟩

theorem witness_IdleBlockKeepsItsState : sFinal.script = [] ∧ sFinal.busy = false ∧ sFinal.t = 0 := ⟨rfl, rfl, rfl⟩

theorem witness_UnreachableSequencerValueFaults :
    ((sBusy 65).busy = true ∧ 65 ≤ (sBusy 65).t.toNat ∧ (sBusy 65).script = []) ∧
    ∃ s : State, s.busy = false ∧ s.t ≠ 0 ∧ s.script = [⟨1, .reset⟩] :=
  ⟨⟨rfl, by decide, rfl⟩, { sAccum with t := 1, script := [⟨1, .reset⟩] }, rfl, by decide, rfl⟩

theorem witness_ResetActionRestoresResetValues :
    (∃ s : State, s.script = [⟨0, .reset⟩] ∧ s.busy = true) ∧
    ∃ s : State, s.script = [⟨3, .reset⟩] ∧ s.busy = false ∧ s.t = 0 :=
  ⟨⟨{ sBusy 10 with script := [⟨0, .reset⟩] }, rfl, rfl⟩, { sFinal with script := [⟨3, .reset⟩] }, rfl, rfl, rfl⟩

theorem witness_InitAfterResetChangesNothing : sFinal.busy = false ∧ ∃ s', exec .init sFinal = .next s' :=
  ⟨rfl, _, rfl⟩

theorem witness_RaiseRecordsTheFirstError :
    sAccum.err = false ∧ { sAccum with err := true, errcode := 1 }.err = true := ⟨rfl, rfl⟩

/-- A rejected operation; an accepted one from a state with an error recorded. -/
theorem witness_ErrorsArePrecise :
    rejection .block sFinal = some .sequence ∧
    ∃ s s' : State, rejection .nop s = none ∧ exec .nop s = .next s' ∧ s'.err = true :=
  ⟨by decide, { sAccum with err := true, errcode := 5 }, _, by decide, rfl, rfl⟩

theorem witness_HistoryFlagIsNeverCleared :
    ∃ s s' : State, step s = .next s' ∧ s.everErr = true ∧ HistoryInv s :=
  ⟨{ sAccum with err := true, everErr := true, errcode := 2, script := [⟨0, .reset⟩] }, _, rfl, rfl, fun _ => rfl⟩

theorem witness_NopHasNoEffect :
    (sBusy 5).busy = true ∧ (sBusy 5).t = 5 ∧ (sBusy 5).phase = .accum ∧ (sBusy 5).err = false ∧
    (sBusy 5).errcode = 0 := by decide

theorem witness_InitStartsAnInvocation : sFinal.busy = false ∧ (sBusy 64).busy = true := ⟨rfl, rfl⟩

theorem witness_BlockStartsACompression :
    (State.reset.busy = false ∧ State.reset.phase ≠ .final) ∧ (sAccum.busy = false ∧ sAccum.phase ≠ .final) ∧
    (sBusy 0).busy = true ∧ sFinal.busy = false ∧ sFinal.phase = .final := by decide

theorem witness_FinalEndsTheInvocation :
    (sAccum.busy = false ∧ sAccum.phase = .accum) ∧ (sBusy 64).busy = true ∧
    (State.reset.busy = false ∧ State.reset.phase ≠ .accum) ∧ sFinal.phase ≠ .accum := by decide

/-- CMD 4 and 7 with RSV = 0; RSV ≠ 0 with CMD 0, at the lowest and the highest RSV bit. -/
theorem witness_IllegalCommandWordsAreRejected :
    4 ≤ ((0x00000004 : Word).extractLsb' 0 3).toNat ∧ 4 ≤ ((0x00000007 : Word).extractLsb' 0 3).toNat ∧
    (0x00000008 : Word).extractLsb' 3 29 ≠ 0 ∧ (0x80000001 : Word).extractLsb' 3 29 ≠ 0 := by decide

theorem witness_CommandsFollowTheAcceptanceTable :
    (commandOf .final = some .final ∧ acceptance .final sFinal.busy sFinal.phase = some .sequence) ∧
    (commandOf .final = some .final ∧ acceptance .final sAccum.busy sAccum.phase = none) := by decide

/-- Each clause of the map at both ends of its range, as a read and as a write. -/
theorem witness_PortFollowsTheRegisterMap :
    (htWe 0x0000000000 = false ∧ (htAddr 0x0000000000).toNat = 0x00) ∧
    (htWe 0x0100000000 = false ∧ (htAddr 0x0100000000).toNat = 0x01) ∧
    (htWe 0x0200000000 = false ∧ (htAddr 0x0200000000).toNat = 0x02) ∧
    (htWe 0x0700000000 = false ∧ (htAddr 0x0700000000).toNat = 0x07) ∧
    (htWe 0x0800000000 = false ∧ (htAddr 0x0800000000).toNat = 0x08 + (0 : Fin 8).val) ∧
    (htWe 0x0F00000000 = false ∧ (htAddr 0x0F00000000).toNat = 0x08 + (7 : Fin 8).val) ∧
    (htWe 0x1000000000 = false ∧ (htAddr 0x1000000000).toNat = 0x10 + (0 : Fin 16).val) ∧
    (htWe 0x1F00000000 = false ∧ (htAddr 0x1F00000000).toNat = 0x10 + (15 : Fin 16).val) ∧
    (htWe 0x2000000004 = true ∧ (htAddr 0x2000000004).toNat = 0x00) ∧
    (htWe 0x2100000000 = true ∧ (htAddr 0x2100000000).toNat = 0x01) ∧
    (htWe 0x2200000000 = true ∧ (htAddr 0x2200000000).toNat = 0x02) ∧
    (htWe 0x2700000000 = true ∧ (htAddr 0x2700000000).toNat = 0x07) ∧
    (htWe 0x2800000000 = true ∧ (htAddr 0x2800000000).toNat = 0x08) ∧
    (htWe 0x2F00000000 = true ∧ (htAddr 0x2F00000000).toNat = 0x0F) ∧
    (htWe 0x3000000000 = true ∧ (htAddr 0x3000000000).toNat = 0x10 + (0 : Fin 16).val) ∧
    (htWe 0x3F00000000 = true ∧ (htAddr 0x3F00000000).toNat = 0x10 + (15 : Fin 16).val) := by decide

theorem witness_ReadsReturnAndChangeNothing :
    2 ≤ (2 : Fin 8).val ∧ 2 ≤ (7 : Fin 8).val ∧ sFinal.phase = .final ∧ sAccum.phase ≠ .final := by decide

theorem witness_WritesWithoutATargetAreRejected : 2 ≤ (2 : Fin 8).val ∧ 2 ≤ (7 : Fin 8).val := by decide

theorem witness_MsgWriteSetsOneWord : (14 : Fin 16) ≠ 15 ∧ (1 : Fin 16) ≠ 0 := by decide

theorem witness_RotateMovesEveryBit : (0 < 1 ∧ 1 < 32) ∧ (0 < 31 ∧ 31 < 32) ∧ 0 < 32 := by decide

theorem witness_ShiftDividesAndFillsWithZeros :
    (0 < 1 ∧ 1 < 32 ∧ 32 - 1 ≤ 31) ∧ (0 < 31 ∧ 31 < 32 ∧ 32 - 31 ≤ 1) := by decide

theorem witness_ScheduleMixersAreLinear : 0 < 32 ∧ 31 < 32 := by decide

theorem witness_RomsAreRootsOfPrimes : 2 ≤ 311 ∧ 311 ≤ 311 := by decide

/-- The first round, the last that expands nothing, the first that expands, and the last. -/
theorem witness_RoundResult :
    ((sBusy 0).busy = true ∧ (sBusy 0).t.toNat = (0 : Fin 64).val ∧ (0 : Fin 64).val < 16) ∧
    ((sBusy 15).busy = true ∧ (sBusy 15).t.toNat = (15 : Fin 64).val ∧ (15 : Fin 64).val < 16) ∧
    ((sBusy 16).busy = true ∧ (sBusy 16).t.toNat = (16 : Fin 64).val ∧ 16 ≤ (16 : Fin 64).val) ∧
    ((sBusy 63).busy = true ∧ (sBusy 63).t.toNat = (63 : Fin 64).val ∧ 16 ≤ (63 : Fin 64).val) := by decide

theorem witness_FoldResult : (sBusy 64).busy = true ∧ (sBusy 64).t = 64 := by decide

theorem witness_MicroStepsStopWhereNotEnabled :
    ¬ (sAccum.busy = true ∧ sAccum.t.toNat = (0 : Fin 64).val) ∧
    ¬ ((sBusy 64).busy = true ∧ (sBusy 64).t.toNat = (63 : Fin 64).val) ∧
    ¬ ((sBusy 63).busy = true ∧ (sBusy 63).t = 64) ∧ ¬ (sAccum.busy = true ∧ sAccum.t = 64) := by decide

theorem witness_EveryInstructionRunsWhereEnabled :
    Enabled (.round 63) (sBusy 63) ∧ Enabled .fold (sBusy 64) ∧ Enabled .nop (sBusy 64) ∧ Enabled (.rdMsg 15) sFinal :=
  ⟨⟨rfl, rfl⟩, ⟨rfl, rfl⟩, trivial, trivial⟩

theorem inv_sBusy64 : Inv (sBusy 64) := by decide

theorem witness_StepKeepsTheInvariants : Inv (sBusy 64) ∧ ∃ s', step (sBusy 64) = .next s' :=
  ⟨inv_sBusy64, step_next_of_inv inv_sBusy64⟩

theorem witness_StepNeverStops : Inv (sBusy 64) ∧ Inv sFinal := by decide

theorem witness_SequencerFollowsTheTransitionRelation :
    (Inv (sBusy 64) ∧ (∃ s', exec .fold (sBusy 64) = .next s') ∧ rejection .fold (sBusy 64) = none ∧
      movesSequencer .fold = true) ∧
    (Inv sFinal ∧ (∃ s', exec .block sFinal = .next s') ∧ rejection .block sFinal ≠ none) ∧
    Inv sFinal ∧ (∃ s', exec .rdCtrl sFinal = .next s') ∧ movesSequencer .rdCtrl = false :=
  ⟨⟨inv_sBusy64, ⟨_, exec_of_effect (.fold rfl rfl)⟩, rfl, rfl⟩,
   ⟨by decide, ⟨_, exec_of_effect (.rejected .sequence rfl)⟩, by decide⟩, by decide, ⟨_, rfl⟩, rfl⟩

theorem witness_OnlyNamedOperationsWriteARegister :
    (∃ s', exec (.wrMsg 0 0x1) sAccum = .next s' ∧ s'.M[(0 : Fin 16)] ≠ sAccum.M[(0 : Fin 16)]) ∧
    (∃ s', exec .block sAccum = .next s' ∧ s'.busy ≠ sAccum.busy ∧ s'.W[(0 : Fin 64)] ≠ sAccum.W[(0 : Fin 64)]) ∧
    (∃ s s' : State, exec .init s = .next s' ∧ s.err = true ∧ s'.err = false) ∧
    ∃ s', exec .rdCtrl sAccum = .next s' ∧ s'.replies ≠ sAccum.replies :=
  ⟨⟨_, rfl, by decide⟩, ⟨_, exec_of_effect (.block rfl (by decide)), by decide, by decide +kernel⟩,
   ⟨{ sAccum with err := true, errcode := 3 }, _, rfl, rfl, rfl⟩, _, rfl, by decide⟩

theorem witness_HostCannotDisturbABlockInFlight :
    (sBusy 5).busy = true ∧ isMicroStep .init = false ∧ ∃ s', exec .init (sBusy 5) = .next s' := ⟨rfl, rfl, _, rfl⟩

/-- Two states with a block in flight that differ in a schedule word that is not live. -/
theorem witness_HiddenRegistersAreInvisible :
    VisiblyEqual (sBusy 5) { sBusy 5 with W := (sBusy 5).W.set 20 0xdeadbeef } ∧
    (sBusy 5).W ≠ ((sBusy 5).W.set 20 0xdeadbeef) := by
  refine ⟨⟨rfl, fun _ => ⟨rfl, fun i hi => ?_⟩⟩, by decide +kernel⟩
  have h : i.val ≠ 20 := by
    intro c
    rcases hi with h | h
    · omega
    · have : (sBusy 5).t.toNat = 5 := rfl
      omega
  exact Vector.getElem_set_ne (by decide) i.isLt (Ne.symm h)

theorem resetNotNext_sDone : ResetNotNext sDone := by
  intro u h
  have hf : fetch sDone = .run .fold sDone := rfl
  rw [hf] at h
  cases h

theorem witness_BlockInFlightComputesCompress :
    (rejection .block sAccum = none ∧ ∃ s', exec .block sAccum = .next s') ∧
    (InFlight romIV abcBlock sDone ∧ ResetNotNext sDone) ∧ sDone.t = 64 :=
  ⟨⟨by decide, _, exec_of_effect (.block rfl (by decide))⟩, ⟨inFlight_sDone, resetNotNext_sDone⟩, rfl⟩

theorem witness_ExpandAndCompressFollowTheirLoops :
    16 ≤ (16 : Fin 64).val ∧ 16 ≤ (63 : Fin 64).val ∧ InFlight romIV abcBlock sDone ∧ sDone.t = 64 ∧
    ∃ s : State, s.busy = false ∧ s.phase ≠ .final ∧ s.t = 0 ∧ s.script = [⟨0, .transaction 0x2000000002⟩] :=
  ⟨by decide, by decide, inFlight_sDone, rfl,
   { sAccum with script := [⟨0, .transaction 0x2000000002⟩] }, rfl, by decide, rfl, rfl⟩

theorem witness_BlockUpdatesTheAccumulator :
    ∃ s : State, s.busy = false ∧ s.phase ≠ .final ∧ s.script = [⟨0, .transaction 0x2000000002⟩] ∧ s.t = 0 :=
  ⟨{ sAccum with script := [⟨0, .transaction 0x2000000002⟩] }, rfl, by decide, rfl, rfl⟩

theorem witness_BlockTakesSixtyFiveMicroSteps :
    (sBusy 0).busy = true ∧ (sBusy 0).t = 0 ∧ (sBusy 0).script = [] := ⟨rfl, rfl, rfl⟩

theorem witness_EveryRunEnds : ∃ s : State, Inv s ∧ s.script = [⟨2, .poll [1, 1]⟩] ∧ s.busy = true :=
  ⟨{ sBusy 0 with script := [⟨2, .poll [1, 1]⟩] }, by decide, rfl, rfl⟩

/-- The longest one-block message and the shortest two-block one meet the bound on the length. -/
theorem witness_PaddedMessageByteByByte :
    bitLength (List.replicate 55 0x61) < 2 ^ 64 ∧ bitLength (List.replicate 56 0x61) < 2 ^ 64 := by decide

theorem witness_PackedWordsAreBigEndian :
    64 * 0 + 64 ≤ (pad [0x61, 0x62, 0x63]).length ∧ 0 < blockCount [(0x61 : Byte), 0x62, 0x63].length := by decide

theorem witness_LastBlockEndsWithTheBitLength :
    bitLength [0x61, 0x62, 0x63] < 2 ^ 64 ∧ [(0x61 : Byte), 0x62, 0x63].length < 2 ^ 29 := by decide

/-- A message of 2^61 bytes, the shortest that is too long, and one that is not. -/
theorem witness_InputTooLargeIssuesNothing :
    (∃ m : List Byte, 2 ^ 64 ≤ bitLength m) ∧ bitLength [] < 2 ^ 64 :=
  ⟨⟨List.replicate (2 ^ 61) 0x00, by rw [bitLength, List.length_replicate]; norm_num⟩, by decide⟩

/-- The driver's run for the empty message, with no step between actions. -/
def driverScript : List HostEntry := (driverActions (messageBlocks [])).map fun a => ⟨0, a⟩

theorem hashActions_driverScript : hashActions [] = .ok (driverActions (messageBlocks [])) := by decide +kernel

theorem schedules_driverScript : schedules driverScript (driverActions (messageBlocks [])) := by
  unfold schedules
  decide +kernel

/-- The check with an error recorded, without one, and behind a gap; the driver started with the block busy. -/
theorem witness_DriverFailsWithoutReadingTheDigest :
    bitLength [] < 2 ^ 64 ∧
    (∃ s : State, s.script = [⟨0, .statusCheck 8⟩] ∧ s.err = true) ∧
    (∃ s : State, s.script = [⟨3, .statusCheck 8⟩] ∧ s.busy = false ∧ s.t = 0 ∧ s.err = false) ∧
    ∃ (actions : List HostAction) (s : State), hashActions [] = .ok actions ∧ schedules s.script actions ∧ Inv s ∧
      s.busy = true ∧ s.script.head?.map (·.gap) = some 0 :=
  ⟨by decide, ⟨{ sAccum with script := [⟨0, .statusCheck 8⟩], err := true, errcode := 2 }, rfl, rfl⟩,
   ⟨{ sFinal with script := [⟨3, .statusCheck 8⟩] }, rfl, rfl, rfl, rfl⟩,
   _, { sBusy 5 with script := driverScript }, hashActions_driverScript, schedules_driverScript, by decide, rfl, rfl⟩

/-- The empty message, from the state FINAL. -/
theorem witness_HashOnCoreReturnsSha256 :
    ∃ (actions : List HostAction) (s : State),
      hashActions [] = .ok actions ∧ schedules s.script actions ∧ s.busy = false ∧ s.t = 0 :=
  ⟨_, { sFinal with script := driverScript }, hashActions_driverScript, schedules_driverScript, rfl, rfl⟩

end Sys2Proof.Machine.Tests
end

