-- ==== Sys2Proof/Proofs/WordOperators.lean ====
section
/-! PROOFS. The word operators `rotr` and `shr` of 00_scope.md R9 and R10, bit by bit and by value. -/

namespace Sys2Proof.Machine

/-- R9's operator is the library's rotation, so the facts about the library's apply to it. -/
theorem rotr_eq_rotateRight {n : Nat} (x : Word) (hn : n < 32) : rotr x n = x.rotateRight n := by
  rw [rotr, BitVec.rotateRight_def, Nat.mod_eq_of_lt hn]

/-- R9: below the wrap the bit comes down from bit `i + n`, above it from the low `n` bits of `x`. -/
theorem getLsbD_rotr {n i : Nat} (x : Word) (hn : n < 32) (hi : i < 32) :
    (rotr x n).getLsbD i = x.getLsbD ((i + n) % 32) := by
  rw [rotr_eq_rotateRight x hn, BitVec.getLsbD_rotateRight, Nat.mod_eq_of_lt hn]
  rcases Nat.lt_or_ge (i + n) 32 with h | h
  · have hlow : i < 32 - n := by omega
    rw [Nat.mod_eq_of_lt h, decide_eq_true hlow, cond_true, Nat.add_comm]
  · have hhigh : ¬ i < 32 - n := by omega
    have hsource : (i + n) % 32 = i - (32 - n) := by omega
    rw [hsource, decide_eq_false hhigh, cond_false, decide_eq_true hi, Bool.true_and]

theorem getLsbD_shr (x : Word) (n i : Nat) : (shr x n).getLsbD i = x.getLsbD (i + n) := by
  rw [shr, BitVec.getLsbD_ushiftRight, Nat.add_comm]

theorem toNat_shr (x : Word) (n : Nat) : (shr x n).toNat = x.toNat / 2 ^ n := by
  rw [shr, BitVec.toNat_ushiftRight, Nat.shiftRight_eq_div_pow]

/-- R10: a bit of index `32 - n` or more reads past bit 31 of `x`. -/
theorem getLsbD_shr_of_le {n i : Nat} (x : Word) (h : 32 - n ≤ i) : (shr x n).getLsbD i = false := by
  rw [getLsbD_shr]
  exact BitVec.getLsbD_of_ge x (i + n) (by omega)

/-- Settles O33, by the split at the wrap of `getLsbD_rotr`. -/
theorem rotateMovesEveryBit : Obligations.RotateMovesEveryBit :=
  fun x _ _ _ hn hi => getLsbD_rotr x hn hi

/-- Settles O34: the shift's value is the quotient, and its top bits read past bit 31. -/
theorem shiftDividesAndFillsWithZeros : Obligations.ShiftDividesAndFillsWithZeros :=
  fun x n _ _ => ⟨toNat_shr x n, fun _ hi _ => getLsbD_shr_of_le x hi⟩

end Sys2Proof.Machine
end

