-- ==== Sys2Proof/Proofs/StateRegisters.lean ====
section
/-! PROOFS. The registers of 10_state.md: their values after reset (R39), the error record's first code (R30), which
operations write which register (R21 to R30), and the invariants of R31 along a step. -/

namespace Sys2Proof.Machine

/-! ## Reset and the error record -/

/-- Settles O15: the block buffer's words are those of a constant vector, the rest is the record written out. -/
theorem stateRightAfterReset : Obligations.StateRightAfterReset :=
  ⟨rfl, fun i => Vector.getElem_replicate i.isLt, rfl, rfl, rfl, rfl, rfl, rfl⟩

theorem inv_reset : Inv State.reset := by
  refine ⟨?busyAccum, ?finalIdle, fun _ => rfl, ?round, fun _ => rfl, ?code⟩ <;> decide

/-- RESET's state meets the invariants, whatever the state it is taken in (70_reset_and_hazards.md R270). -/
theorem inv_resetBlock (s : State) : Inv (resetBlock s) := by
  refine ⟨?busyAccum, ?finalIdle, fun _ => resetBlock_t s, ?round, fun _ => resetBlock_errcode s, ?code⟩ <;> simp

/-- Settles O18: no error is recorded right after reset, so the history flag's invariant asks for nothing. -/
theorem resetStateMeetsTheInvariants : Obligations.ResetStateMeetsTheInvariants :=
  ⟨inv_reset, fun herr => Bool.noConfusion herr⟩

theorem raise_of_err_false (c : CmdError) {s : State} (h : s.err = false) :
    raise c s = { s with err := true, errcode := errorCode c, everErr := true } := by
  rw [raise, h, if_neg Bool.false_ne_true]

theorem raise_of_err_true (c : CmdError) {s : State} (h : s.err = true) :
    raise c s = { s with everErr := true } := by
  rw [raise, if_pos h, h]

/-- Settles O19, by the two branches of `raise`. -/
theorem raiseRecordsTheFirstError : Obligations.RaiseRecordsTheFirstError :=
  ⟨fun c _ h => raise_of_err_false c h, fun c _ h => raise_of_err_true c h, rfl, rfl, rfl, rfl, rfl⟩

/-! ## The invariants along a step -/

/-- Settles O42: a step is an operation's effect, a RESET or waiting, and `Inv` does not look at the script. -/
theorem stepKeepsTheInvariants : Obligations.StepKeepsTheInvariants := by
  intro s s' hinv hstep
  rcases step_cases hstep with ⟨i, l, -, heff⟩ | ⟨l, -, rfl⟩ | rfl
  · exact inv_effect (s := { s with script := l }) hinv heff
  · exact inv_resetBlock _
  · exact hinv

/-! ## Which operations write a register

One lemma a register, by cases on the operation's effect. -/

/-- R210 to R218: a word is returned by the five reads only. -/
theorem read_of_readValue {i : Instr} {s : State} {v : Word} (h : readValue i s = some v) :
    i = .rdCtrl ∨ i = .rdStatus ∨ (∃ a, i = .rdRsv a) ∨ (∃ j, i = .rdDigest j) ∨ ∃ n, i = .rdMsg n := by
  cases i <;> simp_all [readValue]

section
variable {i : Instr} {s s' : State} (he : Effect i s s')
include he

/-- R21. -/
theorem Effect.writes_H (h : s'.H ≠ s.H) : i = .init ∨ i = .fold := by
  cases he <;> simp at h ⊢

/-- R22. -/
theorem Effect.writes_work (h : s'.work ≠ s.work) : i = .block ∨ ∃ k, i = .round k := by
  cases he <;> simp at h ⊢

/-- R23: BLOCK loads the words 0 to 15, and ROUND(n) writes W[n] where it expands. -/
theorem Effect.writes_W (n : Fin 64) (h : s'.W[n] ≠ s.W[n]) :
    (i = .block ∧ n.val < 16) ∨ (i = .round n ∧ 16 ≤ n.val) := by
  cases he with
  | block hb hp =>
    refine .inl ⟨rfl, ?_⟩
    by_contra hn
    exact h (withBlock_high s.M s.W n.val hn n.isLt)
  | round k hb ht =>
    have hkn : n = k := by
      by_contra hne
      exact h (expandWord_ne k s.W n.val n.isLt (Fin.val_ne_of_ne hne))
    subst hkn
    refine .inr ⟨rfl, ?_⟩
    by_contra hn
    exact h (congrArg (·[n]) (expandWord_low n s.W (by omega)))
  | _ => simp at h

/-- R24. -/
theorem Effect.writes_M (n : Fin 16) (h : s'.M[n] ≠ s.M[n]) : ∃ v, i = .wrMsg n v := by
  cases he with
  | wrMsg m v =>
    have hmn : m = n := by
      by_contra hne
      exact h (Vector.getElem_set_ne m.isLt n.isLt (Fin.val_ne_of_ne hne))
    exact ⟨v, by rw [hmn]⟩
  | _ => simp at h

/-- R26. -/
theorem Effect.writes_t (h : s'.t ≠ s.t) : i = .init ∨ i = .block ∨ i = .fold ∨ ∃ k, i = .round k := by
  cases he <;> simp at h ⊢

/-- R28. -/
theorem Effect.writes_busy (h : s'.busy ≠ s.busy) :
    (i = .block ∧ s'.busy = true) ∨ (i = .fold ∧ s'.busy = false) := by
  cases he <;> simp at h ⊢

/-- R29. -/
theorem Effect.writes_phase (h : s'.phase ≠ s.phase) : i = .init ∨ i = .block ∨ i = .final := by
  cases he <;> simp at h ⊢

/-- R30: the record is cleared by INIT only, among the operations. -/
theorem Effect.clears_err (h : s.err = true) (h' : s'.err = false) : i = .init := by
  cases he <;> simp [h] at h' ⊢

theorem Effect.writes_replies (h : s'.replies ≠ s.replies) :
    i = .rdCtrl ∨ i = .rdStatus ∨ (∃ a, i = .rdRsv a) ∨ (∃ j, i = .rdDigest j) ∨ ∃ n, i = .rdMsg n := by
  cases he with
  | read v hv => exact read_of_readValue hv
  | _ => simp at h

theorem Effect.draws_eq : s'.draws = s.draws := by
  cases he <;> simp

end

/-- Settles O45, from the lemma of each register. -/
theorem onlyNamedOperationsWriteARegister : Obligations.OnlyNamedOperationsWriteARegister := by
  intro i s s' hexec
  have he := effect_of_exec hexec
  exact ⟨he.writes_H, he.writes_work, he.writes_W, he.writes_M, he.writes_t, he.writes_busy, he.writes_phase,
    he.clears_err, he.writes_replies, effect_script he, he.draws_eq⟩

end Sys2Proof.Machine
end

