-- ==== Sys2Proof/Proofs/HiddenRegisters.lean ====
section
/-! PROOFS. No transaction can show W and a..h beyond the block in flight (10_state.md R38, R40): a step does not
choose its transition by them, and each operation's effect takes two states that differ there to two states that do. -/

namespace Sys2Proof.Machine

/-- The state with other values in the registers R39 leaves unspecified. -/
def withHidden (W : Schedule) (v : Working) (s : State) : State := { s with W := W, work := v }

/-- The values `W` and `v` agree with the state's where the block in flight needs them. -/
def HiddenAgree (W : Schedule) (v : Working) (s : State) : Prop :=
  s.busy = true → v = s.work ∧ ∀ i : Fin 64, Live s.t i → W[i] = s.W[i]

theorem hiddenAgree_of_idle {W : Schedule} {v : Working} {s : State} (h : s.busy = false) : HiddenAgree W v s := by
  intro hb
  rw [h] at hb
  cases hb

/-- What `VisiblyEqual` says, as an update of the one state. -/
theorem visiblyEqual_iff {s s' : State} :
    VisiblyEqual s s' ↔ ∃ W v, s' = withHidden W v s ∧ HiddenAgree W v s := by
  constructor
  · rintro ⟨hrest, hagree⟩
    exact ⟨s'.W, s'.work, by rw [← hrest]; rfl, hagree⟩
  · rintro ⟨W, v, rfl, hagree⟩
    exact ⟨rfl, hagree⟩

theorem visiblyEqual_refl (s : State) : VisiblyEqual s s := ⟨rfl, fun _ => ⟨rfl, fun _ _ => rfl⟩⟩

section
variable (W : Schedule) (v : Working) (s : State)

/-! ## What the hidden registers do not enter -/

theorem rejection_withHidden (i : Instr) : rejection i (withHidden W v s) = rejection i s := by
  cases i <;> rfl

theorem readValue_withHidden (i : Instr) : readValue i (withHidden W v s) = readValue i s := by
  cases i <;> rfl

theorem enabled_withHidden (i : Instr) : Enabled i (withHidden W v s) ↔ Enabled i s := by
  cases i <;> rfl

theorem raise_withHidden (c : CmdError) : raise c (withHidden W v s) = withHidden W v (raise c s) := by
  cases herr : s.err with
  | true => rw [raise_of_err_true c herr, raise_of_err_true c (s := withHidden W v s) herr]; rfl
  | false => rw [raise_of_err_false c herr, raise_of_err_false c (s := withHidden W v s) herr]; rfl

theorem resetBlock_withHidden : resetBlock (withHidden W v s) = resetBlock s := rfl

/-- A transition chosen by `fetch`, from a state with other hidden values. -/
def Fetched.withHidden : Fetched → Fetched
  | .run i s => .run i (Machine.withHidden W v s)
  | .reset s => .reset (Machine.withHidden W v s)
  | .wait => .wait
  | .stop r => .stop r

theorem hostTurn_withHidden (a : HostAction) (rest : List HostEntry) :
    hostTurn a rest (withHidden W v s) = (hostTurn a rest s).withHidden W v := by
  cases a <;> rfl

/-- R65: the next transition is chosen by the script and the sequencer word. -/
theorem fetch_withHidden : fetch (withHidden W v s) = (fetch s).withHidden W v := by
  have hscript : (withHidden W v s).script = s.script := rfl
  have hword : sequencerWord (withHidden W v s) = sequencerWord s := rfl
  rw [fetch, fetch, hscript, hword]
  split
  next a rest _ => exact hostTurn_withHidden W v s a rest
  next g a rest _ =>
    split
    next => rfl
    next => exact hostTurn_withHidden W v s a rest
    next => rfl
  next => split <;> rfl

end

/-! ## The block in flight -/

/-- The word ROUND(k) uses, after EXPAND(k), depends on live words only (R23). -/
theorem expandWord_live {k : Fin 64} {t : BitVec 7} {W W' : Schedule} (ht : t.toNat = k.val)
    (h : ∀ i : Fin 64, Live t i → W'[i] = W[i]) : (expandWord k W')[k] = (expandWord k W)[k] := by
  rcases Nat.lt_or_ge k.val 16 with hk | hk
  · rw [expandWord_low k W' hk, expandWord_low k W hk]
    exact h k (.inl hk)
  · rw [expandWord_self k W' hk, expandWord_self k W hk]
    exact scheduleWord_congr k W' W hk fun i hi hik => h ⟨i, hi⟩ (.inr (ht ▸ hik))

/-- ROUND(k) makes W[k] live, and it writes it alike in both schedules. -/
theorem expandWord_live_succ {k : Fin 64} {t : BitVec 7} {W W' : Schedule} (ht : t.toNat = k.val)
    (h : ∀ i : Fin 64, Live t i → W'[i] = W[i]) {i : Fin 64} (hi : Live (t + 1) i) :
    (expandWord k W')[i] = (expandWord k W)[i] := by
  by_cases hik : i = k
  · rw [hik]
    exact expandWord_live ht h
  · have hne : i.val ≠ k.val := Fin.val_ne_of_ne hik
    have hsucc : (t + 1).toNat ≤ t.toNat + 1 := by
      rw [BitVec.toNat_add]
      exact Nat.mod_le _ _
    have hlive : Live t i := hi.imp id fun hlt => by omega
    exact (expandWord_ne k W' i.val i.isLt hne).trans
      ((h i hlive).trans (expandWord_ne k W i.val i.isLt hne).symm)

/-! ## Operations and steps -/

/-- Every effect is matched from the state with other hidden values, and leaves states that differ only there. -/
theorem effect_withHidden {i : Instr} {s u : State} {W : Schedule} {v : Working} (he : Effect i s u)
    (ha : HiddenAgree W v s) :
    ∃ W' v', Effect i (withHidden W v s) (withHidden W' v' u) ∧ HiddenAgree W' v' u := by
  cases he with
  | rejected c hc =>
    refine ⟨W, v, ?_, by simpa [HiddenAgree] using ha⟩
    rw [← raise_withHidden]
    exact .rejected c ((rejection_withHidden W v s i).trans hc)
  | nop => exact ⟨W, v, .nop, ha⟩
  | init hb => exact ⟨W, v, .init (s := withHidden W v s) hb, hiddenAgree_of_idle hb⟩
  | block hb hp =>
    refine ⟨withBlock s.M W, .ofWords s.H, .block (s := withHidden W v s) hb hp, fun _ => ⟨rfl, fun n hn => ?_⟩⟩
    have hlow : n.val < 16 := hn.resolve_right (Nat.not_lt_zero _)
    exact (withBlock_low s.M W n.val hlow).trans (withBlock_low s.M s.W n.val hlow).symm
  | final hb hp => exact ⟨W, v, .final (s := withHidden W v s) hb hp, ha⟩
  | read x hx => exact ⟨W, v, .read (s := withHidden W v s) x ((readValue_withHidden W v s i).trans hx), ha⟩
  | wrMsg n x => exact ⟨W, v, .wrMsg (s := withHidden W v s) n x, ha⟩
  | round k hb ht =>
    obtain ⟨rfl, hW⟩ := ha hb
    refine ⟨expandWord k W, roundWorking s.work (roundConstant k) (expandWord k W)[k],
      .round (s := withHidden W s.work s) k hb ht, fun _ => ⟨?_, fun n hn => expandWord_live_succ ht hW hn⟩⟩
    exact congrArg (roundWorking s.work (roundConstant k)) (expandWord_live ht hW)
  | fold hb ht =>
    obtain ⟨rfl, -⟩ := ha hb
    exact ⟨W, s.work, .fold (s := withHidden W s.work s) hb ht, hiddenAgree_of_idle rfl⟩

/-- R159, R182: a micro-step asked for where it is not enabled is refused, and nothing else is ever not enabled. -/
theorem exec_of_not_enabled {i : Instr} {s : State} (h : ¬ Enabled i s) :
    exec i s = .refused .microStepNotEnabled := by
  cases i with
  | round k => exact if_neg h
  | fold => exact if_neg h
  | _ => exact absurd trivial h

/-- Operations run alike from states that differ only in hidden values. -/
theorem exec_visiblyEqual (i : Instr) {s s' : State} (h : VisiblyEqual s s') :
    SameOutcome VisiblyEqual (exec i s) (exec i s') := by
  obtain ⟨W, v, rfl, ha⟩ := visiblyEqual_iff.1 h
  by_cases hen : Enabled i s
  · obtain ⟨u, hu⟩ := effect_exists hen
    obtain ⟨W', v', hu', ha'⟩ := effect_withHidden hu ha
    rw [exec_of_effect hu, exec_of_effect hu']
    exact visiblyEqual_iff.2 ⟨W', v', rfl, ha'⟩
  · rw [exec_of_not_enabled hen, exec_of_not_enabled (mt (enabled_withHidden W v s i).1 hen)]
    rfl

/-- Steps go alike from states that differ only in hidden values: the same transition is chosen, and it is run from
states that differ only there; a RESET overwrites them with the same draw. -/
theorem step_visiblyEqual {s s' : State} (h : VisiblyEqual s s') :
    SameOutcome VisiblyEqual (step s) (step s') := by
  obtain ⟨W, v, rfl, ha⟩ := visiblyEqual_iff.1 h
  have hrun (i : Instr) (l : List HostEntry) : SameOutcome VisiblyEqual
      (exec i { s with script := l }) (exec i (withHidden W v { s with script := l })) :=
    exec_visiblyEqual i (visiblyEqual_iff.2 ⟨W, v, rfl, ha⟩)
  rw [step, step, fetch_withHidden]
  rcases fetch_cases s with ⟨i, l, -, hf⟩ | ⟨i, l, -, hf⟩ | ⟨l, hf⟩ | ⟨-, -, hf⟩ | ⟨e, -, -, hf⟩
  · rw [hf]; exact hrun i l
  · rw [hf]; exact hrun i l
  · rw [hf]
    dsimp only [Fetched.withHidden]
    rw [resetBlock_withHidden]
    exact visiblyEqual_refl _
  · rw [hf]; exact h
  · rw [hf]; rfl

/-- Settles O47: the step lemma, and the idle reset state, in which every value of W and a..h is hidden. -/
theorem hiddenRegistersAreInvisible : Obligations.HiddenRegistersAreInvisible :=
  ⟨fun _ _ h => step_visiblyEqual h,
    fun W v => visiblyEqual_iff.2 ⟨W, v, rfl, hiddenAgree_of_idle rfl⟩⟩

end Sys2Proof.Machine
end

