-- ==== Sys2Proof/Proofs/RegisterPort.lean ====
section
/-! PROOFS. Whose transition a step is (20_memory.md R65, R66), and what a port transaction does by its address: both
columns of the register map (R55). -/

namespace Sys2Proof.Machine

/-! ## The order of transitions -/

/-- Settles O10: the host's turn, by what `fetch` chooses. -/
theorem stepRunsTheHostTransaction : Obligations.StepRunsTheHostTransaction :=
  fun _ _ _ _ hscript hturn => step_transaction hscript hturn

/-- Settles O11: the engine's turn, with an empty script and with a gap. -/
theorem stepRunsTheMicroStep : Obligations.StepRunsTheMicroStep :=
  fun _ _ hdecode =>
    ⟨fun hscript => step_engine_empty hscript hdecode, fun _ _ _ hscript => step_engine_gap hscript hdecode⟩

/-! ## The read column -/

theorem reservedAddr_bits : ∀ a : Fin 8,
    (BitVec.ofNat 5 a.val).getLsbD 4 = false ∧ (BitVec.ofNat 5 a.val).getLsbD 3 = false := by decide

theorem digestAddr_bits : ∀ j : Fin 8,
    (BitVec.ofNat 5 (0x08 + j.val)).getLsbD 4 = false ∧ (BitVec.ofNat 5 (0x08 + j.val)).getLsbD 3 = true := by decide

theorem msgAddr_bit : ∀ n : Fin 16, (BitVec.ofNat 5 (0x10 + n.val)).getLsbD 4 = true := by decide

section
variable (s : State)

theorem portRead_ctrl : portRead 0x00 s = 0x00000000 := rfl

theorem portRead_status : portRead 0x01 s = statusWord s := rfl

theorem portRead_reserved (a : Fin 8) (h : 2 ≤ a.val) : portRead (BitVec.ofNat 5 a.val) s = 0x00000000 := by
  obtain ⟨h4, h3⟩ := reservedAddr_bits a
  obtain ⟨-, hstatus, -, -⟩ := reservedAddr_fields a h
  simp only [portRead, h4, h3, hstatus, Bool.false_eq_true, if_false]

theorem portRead_digest (j : Fin 8) : portRead (BitVec.ofNat 5 (0x08 + j.val)) s = digestValue j s := by
  obtain ⟨h4, h3⟩ := digestAddr_bits j
  obtain ⟨-, -, -, -, hindex⟩ := digestAddr_fields j
  simp only [portRead, h4, h3, hindex, Bool.false_eq_true, if_false, if_true]

theorem portRead_msg (n : Fin 16) : portRead (BitVec.ofNat 5 (0x10 + n.val)) s = msgValue n s := by
  obtain ⟨-, -, -, -, hindex⟩ := msgAddr_fields n
  simp only [portRead, msgAddr_bit n, hindex, if_true]

/-! ## Transactions by address -/

theorem portAddr_of_toNat {addr : PortAddr} {n : Nat} (h : addr.toNat = n) : addr = BitVec.ofNat 5 n := by
  rw [← h, BitVec.ofNat_toNat, BitVec.setWidth_eq]

theorem reservedAddr_of_toNat {addr : PortAddr} (h : 0x02 ≤ addr.toNat ∧ addr.toNat ≤ 0x07) :
    ∃ a : Fin 8, 2 ≤ a.val ∧ addr = BitVec.ofNat 5 a.val :=
  ⟨⟨addr.toNat, by omega⟩, h.1, portAddr_of_toNat rfl⟩

theorem digestAddr_of_toNat {addr : PortAddr} (h : 0x08 ≤ addr.toNat ∧ addr.toNat ≤ 0x0F) :
    ∃ j : Fin 8, addr = BitVec.ofNat 5 (0x08 + j.val) :=
  ⟨⟨addr.toNat - 0x08, by omega⟩, portAddr_of_toNat (by simp only; omega)⟩

/-- R80: a transaction decodes as the word of its fields. -/
theorem decodeHT_of_fields {T : Transaction} {we : Bool} {addr : PortAddr} (hwe : htWe T = we)
    (haddr : htAddr T = addr) : decodeHT T = decodeHT (htWord we addr (htData T)) := by
  rw [← hwe, ← haddr, htWord_of_fields]

/-- R55, R58: a read delivers the read column's word and does nothing else. -/
theorem exec_portRead {T : Transaction} (hwe : htWe T = false) :
    exec (decodeHT T) s = .next (deliver (portRead (htAddr T) s) s) := by
  rcases portAddr_cases (htAddr T) with h | h | ⟨a, ha, h⟩ | ⟨j, h⟩ | ⟨n, h⟩ <;> rw [decodeHT_of_fields hwe h, h]
  · rw [portRead_ctrl, decodeHT_htWord]; rfl
  · rw [portRead_status, decodeHT_htWord]; rfl
  · rw [portRead_reserved s a ha, decodeHT_reserved false a _ ha]; rfl
  · rw [portRead_digest, decodeHT_digest]; rfl
  · rw [portRead_msg, decodeHT_msg]; rfl

/-! ## The write column -/

variable {T : Transaction} (hwe : htWe T = true)
include hwe

theorem decodeHT_ctrlWrite (h : (htAddr T).toNat = 0x00) : decodeHT T = decodeCommand (htData T) := by
  rw [decodeHT_of_fields hwe (portAddr_of_toNat h)]
  exact decode_ctrlWrite _

/-- R213. -/
theorem exec_statusWrite (h : (htAddr T).toNat = 0x01) : exec (decodeHT T) s = .next (withError 4 s) := by
  rw [decodeHT_of_fields hwe (portAddr_of_toNat h), decodeHT_htWord]
  exact congrArg _ (raise_eq_withError .writeRo s)

/-- R219. -/
theorem exec_reservedWrite (h : 0x02 ≤ (htAddr T).toNat ∧ (htAddr T).toNat ≤ 0x07) :
    exec (decodeHT T) s = .next (withError 5 s) := by
  obtain ⟨a, ha, haddr⟩ := reservedAddr_of_toNat h
  rw [decodeHT_of_fields hwe haddr, decodeHT_reserved true a _ ha]
  exact congrArg _ (raise_eq_withError .unmapped s)

/-- R215. -/
theorem exec_digestWrite (h : 0x08 ≤ (htAddr T).toNat ∧ (htAddr T).toNat ≤ 0x0F) :
    exec (decodeHT T) s = .next (withError 4 s) := by
  obtain ⟨j, haddr⟩ := digestAddr_of_toNat h
  rw [decodeHT_of_fields hwe haddr, decodeHT_digest]
  exact congrArg _ (raise_eq_withError .writeRo s)

/-- R216. -/
theorem exec_msgWrite (n : Fin 16) (h : (htAddr T).toNat = 0x10 + n.val) :
    exec (decodeHT T) s = .next { s with M := s.M.set n.val (htData T) } := by
  rw [decodeHT_of_fields hwe (portAddr_of_toNat h), decodeHT_msg]
  rfl

end

/-- Settles O28: the read column is `portRead`, and the write column has a lemma a row. -/
theorem portFollowsTheRegisterMap : Obligations.PortFollowsTheRegisterMap := by
  refine ⟨fun T s hwe => ⟨portRead (htAddr T) s, exec_portRead s hwe, ?ctrl, ?status, ?reserved, ?digest, ?msg⟩,
    fun T s hwe => ⟨decodeHT_ctrlWrite hwe, exec_statusWrite s hwe, exec_reservedWrite s hwe, exec_digestWrite s hwe,
      exec_msgWrite s hwe⟩⟩
  case ctrl => exact fun h => portAddr_of_toNat h ▸ portRead_ctrl s
  case status => exact fun h => portAddr_of_toNat h ▸ portRead_status s
  case reserved =>
    intro h
    obtain ⟨a, ha, haddr⟩ := reservedAddr_of_toNat h
    exact haddr ▸ portRead_reserved s a ha
  case digest => exact fun j h => portAddr_of_toNat h ▸ portRead_digest s j
  case msg => exact fun n h => portAddr_of_toNat h ▸ portRead_msg s n

end Sys2Proof.Machine
end

