-- ==== Sys2Proof/Proofs/ConstantRoms.lean ====
section
/-! PROOFS. The constant ROMs are the integer roots that 20_memory.md R62 names: the list of primes is checked by trial
division, and each table word by the two inequalities that single out an integer root. -/

namespace Sys2Proof.Machine

/-! ## The first 64 primes -/

/-- No divisor from 2 up to the square root, for a number below 18². -/
abbrev PassesTrialDivision (p : Nat) : Prop := 2 ≤ p ∧ ∀ d < 18, 2 ≤ d → d * d ≤ p → ¬ d ∣ p

theorem passesTrialDivision_iff {p : Nat} (hp : p < 18 * 18) : PassesTrialDivision p ↔ p.Prime := by
  rw [Nat.prime_def_le_sqrt]
  refine and_congr_right fun _ => ⟨fun h d h2 hd => ?_, fun h d _ h2 hd => h d h2 (Nat.le_sqrt.2 hd)⟩
  have hsq : d * d ≤ p := Nat.le_sqrt.1 hd
  exact h d (Nat.mul_self_lt_mul_self_iff.1 (hsq.trans_lt hp)) h2 hsq

theorem romPrimes_eq_filter : romPrimes = (List.range 312).filter (PassesTrialDivision ·) := by decide

theorem romPrimes_pairwise : romPrimes.Pairwise (· < ·) := by
  rw [romPrimes_eq_filter]
  exact List.pairwise_lt_range.filter _

theorem mem_romPrimes_iff {p : Nat} (hp : p ≤ 311) : p ∈ romPrimes ↔ p.Prime := by
  rw [romPrimes_eq_filter, List.mem_filter, List.mem_range, decide_eq_true_iff, passesTrialDivision_iff (by omega)]
  exact and_iff_right (by omega)

/-! ## The words of the tables -/

/-- Some integer part below 7 makes `w`, as the 32 fractional bits, the n-th root of `p`, rounded down: 6 is the
integer part of the cube root of 311, and the square roots used are those of the primes up to 19. -/
def IsRootFraction (n p : Nat) (w : Word) : Prop :=
  ∃ c < 7, (c * 2 ^ 32 + w.toNat) ^ n ≤ p * 2 ^ (32 * n) ∧ p * 2 ^ (32 * n) < (c * 2 ^ 32 + w.toNat + 1) ^ n

theorem IsRootFraction.exists_root {n p : Nat} {w : Word} (h : IsRootFraction n p w) :
    ∃ r, r ^ n ≤ p * 2 ^ (32 * n) ∧ p * 2 ^ (32 * n) < (r + 1) ^ n ∧ w.toNat = r % 2 ^ 32 := by
  obtain ⟨c, -, hle, hlt⟩ := h
  refine ⟨c * 2 ^ 32 + w.toNat, hle, hlt, ?_⟩
  rw [Nat.mul_add_mod', Nat.mod_eq_of_lt w.isLt]

theorem roundConstant_isRootFraction : ∀ i : Fin 64, IsRootFraction 3 (romPrimes.getD i.val 0) (roundConstant i) := by
  unfold IsRootFraction
  decide

theorem initialValue_isRootFraction : ∀ j : Fin 8, IsRootFraction 2 (romPrimes.getD j.val 0) (initialValue j) := by
  unfold IsRootFraction
  decide

/-- Settles O37: the list is the sieve's below 312, and each word has its integer root from `IsRootFraction`. -/
theorem romsAreRootsOfPrimes : Obligations.RomsAreRootsOfPrimes :=
  ⟨rfl, romPrimes_pairwise, fun _ hp => mem_romPrimes_iff hp, fun i => (roundConstant_isRootFraction i).exists_root,
    fun j => (initialValue_isRootFraction j).exists_root⟩

end Sys2Proof.Machine
end

