-- ==== Sys2Proof/Proofs/HostTransactions.lean ====
section
/-! PROOFS. The host transaction format of 30_encoding.md R80: decoding and encoding undo each other, on instructions
up to `Instr.wf` and on words up to the data field of a read (R81). -/

namespace Sys2Proof.Machine

/-! ## Encoding, then decoding -/

/-- Settles O3: every row of the opcode map has its lemma in Laws/PerInstr.lean. -/
theorem decodeOfEncodeIsTheInstruction : Obligations.DecodeOfEncodeIsTheInstruction := by
  intro i
  cases i with
  | nop => exact Laws.RoundTrip.nop
  | init => exact Laws.RoundTrip.init
  | block => exact Laws.RoundTrip.block
  | final => exact Laws.RoundTrip.final
  | ctrlIllegal data => exact Laws.RoundTrip.ctrlIllegal data
  | rdCtrl => exact Laws.RoundTrip.rdCtrl
  | rdStatus => exact Laws.RoundTrip.rdStatus
  | wrStatus data => exact Laws.RoundTrip.wrStatus data
  | rdRsv a => exact Laws.RoundTrip.rdRsv a
  | wrRsv a data => exact Laws.RoundTrip.wrRsv a data
  | rdDigest j => exact Laws.RoundTrip.rdDigest j
  | wrDigest j data => exact Laws.RoundTrip.wrDigest j data
  | rdMsg n => exact Laws.RoundTrip.rdMsg n
  | wrMsg n v => exact Laws.RoundTrip.wrMsg n v
  | round t => exact Laws.RoundTrip.round t
  | fold => exact Laws.RoundTrip.fold

/-! ## Decoding, then encoding -/

/-- R82: the four legal command words. -/
theorem legalWord_cases {data : Word} (h : data.toNat ≤ 3) : data = 0 ∨ data = 1 ∨ data = 2 ∨ data = 3 := by
  bv_omega

theorem decodeCommand_wf_encode (data : Word) :
    (decodeCommand data).wf = true ∧ encode (decodeCommand data) = .ht (htWord true 0x00 data) := by
  rcases Nat.lt_or_ge 3 data.toNat with hgt | hle
  · rw [decodeCommand_illegal data hgt]
    exact ⟨by simpa [Instr.wf, legalCommandWord] using hgt, rfl⟩
  · rcases legalWord_cases hle with rfl | rfl | rfl | rfl <;> exact ⟨rfl, rfl⟩

/-- R80, R81: the decoder reads a well-formed instruction, and its encoding is the word read but for the data field of
a read, which is 0. By the five kinds of address of R55. -/
theorem decodeHT_htWord_wf_encode (we : Bool) (addr : PortAddr) (data : Word) :
    (decodeHT (htWord we addr data)).wf = true ∧
      encode (decodeHT (htWord we addr data)) = .ht (htWord we addr (if we then data else 0)) := by
  rcases portAddr_cases addr with rfl | rfl | ⟨a, ha, rfl⟩ | ⟨j, rfl⟩ | ⟨n, rfl⟩
  · cases we
    · rw [decodeHT_htWord]; exact ⟨rfl, rfl⟩
    · rw [decode_ctrlWrite]; exact decodeCommand_wf_encode data
  · rw [decodeHT_htWord]; cases we <;> exact ⟨rfl, rfl⟩
  · rw [decodeHT_reserved we a data ha]; cases we <;> exact ⟨decide_eq_true ha, rfl⟩
  · rw [decodeHT_digest]; cases we <;> exact ⟨rfl, rfl⟩
  · rw [decodeHT_msg]; cases we <;> exact ⟨rfl, rfl⟩

theorem decodeHT_wf (T : Transaction) : (decodeHT T).wf = true := by
  rw [← htWord_of_fields T]
  exact (decodeHT_htWord_wf_encode _ _ _).1

/-- R86: a sequencer word decodes to a micro-step, and `Instr.wf` asks nothing of one. -/
theorem decodeSQ_wf {w : StepWord} {i : Instr} (h : decodeSQ w = .ok i) : i.wf = true := by
  rw [decodeSQ] at h
  split_ifs at h <;> cases h <;> rfl

/-- Settles O4, by the address of a transaction and by the branches of a sequencer word. -/
theorem decodedInstructionsAreWellFormed : Obligations.DecodedInstructionsAreWellFormed :=
  ⟨decodeHT_wf, fun _ _ h => decodeSQ_wf h⟩

theorem encode_decodeHT_read {T : Transaction} (hwe : htWe T = false) :
    encode (decodeHT T) = .ht (htWord false (htAddr T) 0) := by
  rw [decodeHT_of_fields hwe rfl]
  exact (decodeHT_htWord_wf_encode false _ _).2

theorem encode_decodeHT_write {T : Transaction} (hwe : htWe T = true) : encode (decodeHT T) = .ht T := by
  rw [decodeHT_of_fields hwe rfl, (decodeHT_htWord_wf_encode _ _ _).2, if_pos rfl, ← hwe, htWord_of_fields]

/-- Two well-formed instructions with the same words are the same instruction. -/
theorem encode_injOn_wf {i i' : Instr} (hi : i.wf = true) (hi' : i'.wf = true) (h : encode i = encode i') : i = i' := by
  have hok : Except.ok i = (Except.ok i' : Except DecodeError Instr) := by
    rw [← decodeOfEncodeIsTheInstruction i hi, ← decodeOfEncodeIsTheInstruction i' hi', h]
  exact Except.ok.inj hok

/-- Settles O5: two reads of one address encode to the same word, so they are one instruction. -/
theorem readDataFieldIsIgnored : Obligations.ReadDataFieldIsIgnored := by
  refine ⟨fun T T' hwe hwe' haddr => ?_, fun _ => encode_decodeHT_read, fun _ => encode_decodeHT_write⟩
  apply encode_injOn_wf (decodeHT_wf T) (decodeHT_wf T')
  rw [encode_decodeHT_read hwe, encode_decodeHT_read hwe', haddr]

/-! ## Illegal command words -/

/-- R82: CMD 4 to 7, or a bit of RSV set, makes the word's value more than 3. -/
theorem lt_toNat_of_illegal {data : Word} (h : data.extractLsb' 3 29 ≠ 0 ∨ 4 ≤ (data.extractLsb' 0 3).toNat) :
    3 < data.toNat := by
  rcases h with hrsv | hcmd
  · by_contra hle
    apply hrsv
    apply BitVec.eq_of_toNat_eq
    rw [BitVec.extractLsb'_toNat, Nat.shiftRight_eq_div_pow, Nat.div_eq_of_lt (by omega)]
    rfl
  · rw [BitVec.extractLsb'_toNat, Nat.shiftRight_zero] at hcmd
    omega

/-- Settles O26: the word is above 3, and CTRL_ILLEGAL's meaning is `raise`. -/
theorem illegalCommandWordsAreRejected : Obligations.IllegalCommandWordsAreRejected := by
  intro data s h
  exact ⟨(decode_ctrlWrite data).trans (decodeCommand_illegal data (lt_toNat_of_illegal h)),
    congrArg _ (raise_eq_withError .illegalCmd s)⟩

/-! ## The value of a transaction, and the words of the spec's examples -/

/-- Settles O8. -/
theorem transactionValue : Obligations.TransactionValue :=
  fun we addr data =>
    ⟨htWord_toNat we addr data, htWe_htWord we addr data, htAddr_htWord we addr data, htData_htWord we addr data⟩

/-- Settles O1: each word is built and read bit by bit. -/
theorem encodingExamplesOfTheSpec : Obligations.EncodingExamplesOfTheSpec :=
  ⟨rfl, rfl, rfl, rfl, rfl, rfl, by decide, rfl, by decide⟩

/-- Settles O2: each word is read bit by bit. -/
theorem decodingExamplesOfTheSpec : Obligations.DecodingExamplesOfTheSpec := by
  unfold Obligations.DecodingExamplesOfTheSpec
  decide

/-! ## Pseudo-instructions -/

/-- R80: a transaction from the number its fields make. -/
theorem htWord_eq_ofNat {we : Bool} {addr : PortAddr} {data : Word} {n : Nat}
    (h : we.toNat * 2 ^ 37 + addr.toNat * 2 ^ 32 + data.toNat = n) : htWord we addr data = BitVec.ofNat 38 n := by
  rw [← h, ← htWord_toNat, BitVec.ofNat_toNat, BitVec.setWidth_eq]

theorem msgAddr_toNat (i : Fin 16) : (msgAddr i).toNat = 0x10 + i.val := by
  rw [msgAddr, BitVec.toNat_ofNat, Nat.mod_eq_of_lt (by omega)]

theorem digestAddr_toNat (j : Fin 8) : (digestAddr j).toNat = 0x08 + j.val := by
  rw [digestAddr, BitVec.toNat_ofNat, Nat.mod_eq_of_lt (by omega)]

/-- R95: the word of `wr MSGi, v`. -/
theorem writeReg_msg (i : Fin 16) (v : Word) :
    writeReg (msgAddr i) v = .transaction (BitVec.ofNat 38 (0x3000000000 + i.val * 2 ^ 32 + v.toNat)) := by
  refine congrArg _ (htWord_eq_ofNat ?_)
  rw [msgAddr_toNat, Bool.toNat_true]
  omega

/-- R95: the word of `rd DIGESTj`. -/
theorem readReg_digest (j : Fin 8) :
    readReg (digestAddr j) = .transaction (BitVec.ofNat 38 (0x0800000000 + j.val * 2 ^ 32)) := by
  refine congrArg _ (htWord_eq_ofNat ?_)
  have hdata : (0 : Word).toNat = 0 := rfl
  rw [digestAddr_toNat, Bool.toNat_false, hdata]
  omega

/-- Settles O9: the lists run over the same indices, and each word is R95's. -/
theorem pseudoInstructionExpansions : Obligations.PseudoInstructionExpansions :=
  ⟨rfl, rfl, rfl, rfl, rfl, fun _ => List.map_congr_left fun i _ => writeReg_msg i _,
    List.map_congr_left fun j _ => readReg_digest j⟩

end Sys2Proof.Machine
end

