-- ==== Sys2Proof/Proofs/OpcodeMap.lean ====
section
/-! PROOFS. The opcode map of 30_encoding.md R87 against the decoder of R86. Only the four command rows look at the data
field, so every other transaction finds the row of its we and addr, of which there are 64. -/

namespace Sys2Proof.Machine

/-! ## Transactions by their fields -/

theorem transaction_ext {T T' : Transaction} (hwe : htWe T = htWe T') (haddr : htAddr T = htAddr T')
    (hdata : htData T = htData T') : T = T' := by
  rw [← htWord_of_fields T, ← htWord_of_fields T', hwe, haddr, hdata]

theorem htWe_and (T T' : Transaction) : htWe (T &&& T') = (htWe T && htWe T') := BitVec.getLsbD_and

theorem htAddr_and (T T' : Transaction) : htAddr (T &&& T') = htAddr T &&& htAddr T' := BitVec.extractLsb'_and

theorem htData_and (T T' : Transaction) : htData (T &&& T') = htData T &&& htData T' := BitVec.extractLsb'_and

/-- A mask that leaves out the data field sees we and addr only. -/
theorem and_eq_and_of_header {T T' mask : Transaction} (hwe : htWe T = htWe T') (haddr : htAddr T = htAddr T')
    (hmask : htData mask = 0) : T &&& mask = T' &&& mask := by
  apply transaction_ext
  · rw [htWe_and, htWe_and, hwe]
  · rw [htAddr_and, htAddr_and, haddr]
  · rw [htData_and, htData_and, hmask]
    exact BitVec.and_zero.trans BitVec.and_zero.symm

/-! ## The rows that look at the data field -/

/-- The transactions of rows 1 to 4 of R87: NOP, INIT, BLOCK, FINAL. -/
def commandTransactions : List Transaction := [0x2000000000, 0x2000000001, 0x2000000002, 0x2000000003]

/-- R87: a row leaves out the data field or is one command's transaction, all bits of it. -/
theorem opcodeMap_mask : ∀ r ∈ opcodeMap,
    htData r.mask = 0 ∨ (r.mask = BitVec.allOnes 38 ∧ r.bits ∈ commandTransactions) := by decide

/-- A transaction that is no command's matches the same rows as any other with its we and addr. -/
theorem firstRow_eq_of_header {T T' : Transaction} (hwe : htWe T = htWe T') (haddr : htAddr T = htAddr T')
    (hT : T ∉ commandTransactions) (hT' : T' ∉ commandTransactions) : firstRow T = firstRow T' := by
  refine List.find?_congr fun r hr => ?_
  rcases opcodeMap_mask r hr with hmask | ⟨hmask, hbits⟩
  · rw [and_eq_and_of_header hwe haddr hmask]
  · rw [hmask, BitVec.and_allOnes, BitVec.and_allOnes, beq_false_of_ne (ne_of_mem_of_not_mem hbits hT).symm,
      beq_false_of_ne (ne_of_mem_of_not_mem hbits hT').symm]

theorem mem_commandTransactions {data : Word} (h : data.toNat ≤ 3) :
    htWord true 0x00 data ∈ commandTransactions := by
  rcases legalWord_cases h with rfl | rfl | rfl | rfl <;> decide

/-- R86: the decoder, too, looks at the data field of the four commands only. -/
theorem mnemonic_decodeHT_eq_of_header {we : Bool} {addr : PortAddr} {data data' : Word}
    (h : htWord we addr data ∉ commandTransactions) (h' : htWord we addr data' ∉ commandTransactions) :
    (decodeHT (htWord we addr data)).mnemonic = (decodeHT (htWord we addr data')).mnemonic := by
  by_cases hctrl : we = true ∧ addr = 0x00
  · obtain ⟨rfl, rfl⟩ := hctrl
    have hgt : 3 < data.toNat := Nat.lt_of_not_le fun hle => h (mem_commandTransactions hle)
    have hgt' : 3 < data'.toNat := Nat.lt_of_not_le fun hle => h' (mem_commandTransactions hle)
    rw [decode_ctrlWrite, decode_ctrlWrite, decodeCommand_illegal data hgt, decodeCommand_illegal data' hgt']
    rfl
  · rw [decodeHT_htWord, decodeHT_htWord, if_neg hctrl, if_neg hctrl]
    split_ifs <;> rfl

/-! ## The first matching row -/

/-- T's first matching row is the one it decodes to. -/
abbrev FirstRowDecodes (T : Transaction) : Prop := (firstRow T).map (·.mnemonic) = some (decodeHT T).mnemonic

theorem firstRowDecodes_command {T : Transaction} (hT : T ∈ commandTransactions) : FirstRowDecodes T := by
  simp only [commandTransactions, List.mem_cons, List.not_mem_nil, or_false] at hT
  rcases hT with rfl | rfl | rfl | rfl <;> rfl

/-- The 64 values of we and addr, with the illegal command word 4 for the data, are no commands. -/
theorem firstRowDecodes_header : ∀ (we : Bool) (addr : PortAddr),
    htWord we addr 4 ∉ commandTransactions ∧ FirstRowDecodes (htWord we addr 4) := by decide

/-- Settles O6: a command by its own word, any other transaction by the one with its we and addr and the data 4. -/
theorem firstMatchingRowDecodes : Obligations.FirstMatchingRowDecodes := by
  intro T
  by_cases hT : T ∈ commandTransactions
  · exact firstRowDecodes_command hT
  · rw [← htWord_of_fields T] at hT ⊢
    obtain ⟨h4, hrow⟩ := firstRowDecodes_header (htWe T) (htAddr T)
    rw [firstRow_eq_of_header (by simp only [htWe_htWord]) (by simp only [htAddr_htWord]) hT h4, hrow,
      mnemonic_decodeHT_eq_of_header hT h4]

end Sys2Proof.Machine
end

