-- ==== Sys2Proof/Proofs/SequencerWords.lean ====
section
/-! PROOFS. The sequencer step word of 30_encoding.md R85 and the engine's turn at each value of it (R86), the STATUS
word of R83, and the POLL that reads it (R96). -/

namespace Sys2Proof.Machine

/-! ## The sequencer step word -/

theorem decodeSQ_not_busy (t : BitVec 7) (i : Instr) : decodeSQ (sqWord false t) ≠ .ok i := by
  rw [decodeSQ_sqWord, if_neg Bool.false_ne_true]
  split <;> exact nofun

/-- Settles O7, by the branches of decode_SQ. -/
theorem sequencerWordEnablesMicroStep : Obligations.SequencerWordEnablesMicroStep :=
  ⟨sqWord_toNat, decodeSQ_round, decodeSQ_fold, decodeSQ_not_busy⟩

/-! ## Unreachable sequencer values -/

/-- R86: the values (busy, t) that no run reaches. -/
theorem decodeSQ_unreachable {s : State} (h : (s.busy = true ∧ 65 ≤ s.t.toNat) ∨ (s.busy = false ∧ s.t ≠ 0)) :
    decodeSQ (sequencerWord s) = .error .unreachableStep := by
  rw [sequencerWord, decodeSQ_sqWord]
  rcases h with ⟨hbusy, ht⟩ | ⟨hbusy, ht⟩
  · have h64 : s.t ≠ 64 := by bv_omega
    rw [if_pos hbusy, dif_neg (by omega), if_neg h64]
  · rw [hbusy, if_neg Bool.false_ne_true, if_neg ht]

/-- Settles O14: the engine has the turn with an empty script and with a gap. -/
theorem unreachableSequencerValueFaults : Obligations.UnreachableSequencerValueFaults := by
  intro s hseq hturn
  rw [step, fetch]
  rcases hturn with hscript | ⟨g, a, rest, hscript⟩ <;> simp only [hscript, decodeSQ_unreachable hseq]

/-! ## The STATUS word -/

/-- R83: the word is the 15 bits of its fields, extended by zeros. -/
theorem statusWord_toNat_lt (s : State) : (statusWord s).toNat < 2 ^ 15 := by
  rw [statusWord, BitVec.toNat_setWidth_of_le (by decide)]
  exact BitVec.isLt _

theorem statusWord_high (s : State) : (statusWord s).extractLsb' 15 17 = 0 := by
  apply BitVec.eq_of_toNat_eq
  rw [BitVec.extractLsb'_toNat, Nat.shiftRight_eq_div_pow, Nat.div_eq_of_lt (statusWord_toNat_lt s)]
  rfl

/-- Settles O32, by the word's value and its bound. -/
theorem statusWordValue : Obligations.StatusWordValue :=
  fun s => ⟨rfl, statusWord_value s, statusWord_high s, rfl, rfl, rfl⟩

/-! ## POLL -/

/-- Settles O12: one read, and what is left of the script is `pollAgain`'s. -/
theorem pollReadsStatusUntilIdle : Obligations.PollReadsStatusUntilIdle := by
  intro s gap gaps rest hscript hturn
  rw [step_poll hscript hturn]
  refine ⟨fun hb => ?idle, fun g gs hb hgaps => ?again, fun hb hgaps => ?last⟩
  case idle => rw [pollAgain_idle hb]; rfl
  case again => rw [hgaps, pollAgain_cons hb]; rfl
  case last => rw [hgaps, pollAgain_nil hb]; rfl

end Sys2Proof.Machine
end

