-- ==== Sys2Proof/Proofs/Padding.lean ====
section
/-! PROOFS. The padded message of 41_preprocessor_host.md: how many zero bytes it has and how many blocks it makes (R112,
R114), and its bytes part by part. -/

namespace Sys2Proof.Machine

/-! ## The number of zero bytes, and the length -/

/-- R112: the chosen number of zero bytes fills the last block up to its eight length bytes. -/
theorem padZeros_mod (n : Nat) : (n + 1 + padZeros n) % 64 = 56 := by
  unfold padZeros
  omega

/-- R112: any number of zero bytes that does so is at least the chosen one. -/
theorem padZeros_le {n j : Nat} (h : (n + 1 + j) % 64 = 56) : padZeros n ≤ j := by
  unfold padZeros
  omega

/-- R112, R114: the length bytes are the last eight of the last block. -/
theorem lengthBytes_start (n : Nat) : n + 1 + padZeros n = 64 * (blockCount n - 1) + 56 := by
  unfold padZeros blockCount
  omega

theorem pad_length_blocks (m : List Byte) : (pad m).length = 64 * blockCount m.length := by
  have hstart := lengthBytes_start m.length
  have hpos : 0 < blockCount m.length := Nat.succ_pos _
  rw [pad_length]
  omega

theorem messageBlocks_length (m : List Byte) : (messageBlocks m).length = blockCount m.length := by
  rw [messageBlocks, List.length_map, List.length_range]

/-- Settles O54: the length is the bytes up to the length field's place in the last block, and its eight. -/
theorem paddingMakesWholeBlocks : Obligations.PaddingMakesWholeBlocks := by
  refine fun m => ⟨pad_length_blocks m, rfl, ?ceil, messageBlocks_length m⟩
  unfold blockCount
  omega

/-! ## The bytes, part by part -/

/-- The four parts of a padded message (R112), nested to the right: the message comes off first. -/
theorem pad_eq (m : List Byte) : pad m =
    m ++ 0x80 :: (List.replicate (padZeros m.length) 0x00 ++ be64 (BitVec.ofNat 64 (bitLength m))) := by
  simp only [pad, List.append_assoc, List.cons_append, List.nil_append]

theorem pad_message {m : List Byte} {i : Nat} (h : i < m.length) : (pad m)[i]? = m[i]? := by
  rw [pad_eq, List.getElem?_append_left h]

theorem pad_marker (m : List Byte) : (pad m)[m.length]? = some 0x80 := by
  rw [pad_eq, List.getElem?_append_right (Nat.le_refl _), Nat.sub_self, List.getElem?_cons_zero]

/-- Behind the marker byte. -/
theorem pad_tail (m : List Byte) (j : Nat) : (pad m)[m.length + 1 + j]? =
    (List.replicate (padZeros m.length) 0x00 ++ be64 (BitVec.ofNat 64 (bitLength m)))[j]? := by
  rw [pad_eq, Nat.add_assoc, List.getElem?_append_right (Nat.le_add_right _ _), Nat.add_sub_cancel_left, Nat.add_comm 1,
    List.getElem?_cons_succ]

theorem pad_zero {m : List Byte} {j : Nat} (h : j < padZeros m.length) : (pad m)[m.length + 1 + j]? = some 0x00 := by
  rw [pad_tail, List.getElem?_append_left (by rwa [List.length_replicate]), List.getElem?_replicate, if_pos h]

theorem be64_getElem? (L : BitVec 64) {i : Nat} (h : i < 8) : (be64 L)[i]? = some (L.extractLsb' (56 - 8 * i) 8) := by
  rw [be64, List.getElem?_map, List.getElem?_range h, Option.map_some]

theorem pad_lengthByte (m : List Byte) {i : Nat} (h : i < 8) : (pad m)[m.length + 1 + padZeros m.length + i]? =
    some ((BitVec.ofNat 64 (bitLength m)).extractLsb' (56 - 8 * i) 8) := by
  rw [Nat.add_assoc, pad_tail, List.getElem?_append_right (by simp), List.length_replicate, Nat.add_sub_cancel_left,
    be64_getElem? _ h]

/-- R112: the value of a byte of the bit length. -/
theorem lengthByte_toNat {L : Nat} (hL : L < 2 ^ 64) (k : Nat) :
    ((BitVec.ofNat 64 L).extractLsb' k 8).toNat = L / 2 ^ k % 256 := by
  rw [BitVec.extractLsb'_toNat, BitVec.toNat_ofNat, Nat.mod_eq_of_lt hL, Nat.shiftRight_eq_div_pow]

/-- Settles O53, part by part. -/
theorem paddedMessageByteByByte : Obligations.PaddedMessageByteByByte := by
  intro m hm
  refine ⟨padZeros m.length, padZeros_mod _, fun _ => padZeros_le, pad_length m, fun _ => pad_message, pad_marker m,
    fun i hlow hhigh => ?zeros, fun i hi => ⟨_, pad_lengthByte m hi, lengthByte_toNat hm _⟩⟩
  obtain ⟨j, rfl⟩ := Nat.exists_eq_add_of_le hlow
  exact pad_zero (by omega)

end Sys2Proof.Machine
end

