-- ==== Sys2Proof/Proofs/BlockPacking.lean ====
section
/-! PROOFS. The blocks of a message (41_preprocessor_host.md R115): a word is four bytes of the padded message, and the
last two words of the last block are the bit length (R113). -/

namespace Sys2Proof.Machine

/-! ## Words and blocks -/

/-- R115: the word at index `i` of block `b`. -/
theorem packBlock_getElem (p : List Byte) (b : Nat) {i : Nat} (hi : i < 16) : (packBlock p b)[i] =
    be32 (byteAt p (64 * b + 4 * i)) (byteAt p (64 * b + 4 * i + 1)) (byteAt p (64 * b + 4 * i + 2))
      (byteAt p (64 * b + 4 * i + 3)) := by
  rw [packBlock, Vector.getElem_ofFn]

theorem byteAt_of_lt {p : List Byte} {k : Nat} (h : k < p.length) : byteAt p k = p[k] :=
  List.getD_eq_getElem _ _ h

theorem messageBlocks_getElem? {m : List Byte} {b : Nat} (h : b < blockCount m.length) :
    (messageBlocks m)[b]? = some (packBlock (pad m) b) := by
  rw [messageBlocks, List.getElem?_map, List.getElem?_range h, Option.map_some]

/-- Settles O55: a word is `be32` of its four bytes, and inside the message each of them is one of its bytes. -/
theorem packedWordsAreBigEndian : Obligations.PackedWordsAreBigEndian := by
  refine ⟨fun p b i h => ?word, fun m b => messageBlocks_getElem?, fun B => rfl⟩
  have hi := i.isLt
  refine (congrArg BitVec.toNat (packBlock_getElem p b hi)).trans ?_
  rw [be32_toNat, byteAt_of_lt, byteAt_of_lt, byteAt_of_lt, byteAt_of_lt]

/-- R113: byte `i` of the bit length, at its place in the last block. -/
theorem byteAt_lastBlock {m : List Byte} (hm : bitLength m < 2 ^ 64) {k i : Nat} (hi : i < 8)
    (hk : k = 64 * (blockCount m.length - 1) + 56 + i) :
    (byteAt (pad m) k).toNat = bitLength m / 2 ^ (56 - 8 * i) % 256 := by
  rw [hk, ← lengthBytes_start, byteAt, List.getD_eq_getElem?_getD, pad_lengthByte m hi, Option.getD_some,
    lengthByte_toNat hm]

/-- R113: the bit length's words, the high one first. -/
theorem lastBlock_lengthWord {m : List Byte} (hm : bitLength m < 2 ^ 64) {j : Nat} (hj : j < 2) :
    ((packBlock (pad m) (blockCount m.length - 1))[14 + j]).toNat = bitLength m / 2 ^ (32 * (1 - j)) % 2 ^ 32 := by
  rw [packBlock_getElem, be32_toNat, byteAt_lastBlock hm (i := 4 * j) (by omega) (by omega),
    byteAt_lastBlock hm (i := 4 * j + 1) (by omega) (by omega),
    byteAt_lastBlock hm (i := 4 * j + 2) (by omega) (by omega),
    byteAt_lastBlock hm (i := 4 * j + 3) (by omega) (by omega)]
  interval_cases j <;> omega

/-- Settles O56: the words at 14 and 15; below 2^29 bytes the length has no bit at 32 or above. -/
theorem lastBlockEndsWithTheBitLength : Obligations.LastBlockEndsWithTheBitLength := by
  intro m hm
  have hfits : bitLength m / 2 ^ 32 < 2 ^ 32 := by omega
  have hhigh := (lastBlock_lengthWord hm (j := 0) (by decide)).trans (Nat.mod_eq_of_lt hfits)
  have hlow := lastBlock_lengthWord hm (j := 1) (by decide)
  rw [Nat.sub_self, Nat.mul_zero, Nat.pow_zero, Nat.div_one] at hlow
  refine ⟨hhigh, hlow, fun hshort => BitVec.eq_of_toNat_eq (hhigh.trans (Nat.div_eq_of_lt ?_))⟩
  rw [bitLength]
  omega

end Sys2Proof.Machine
end

