-- ==== Sys2Proof/Proofs/DriverActions.lean ====
section
/-! PROOFS. What the driver issues (41_preprocessor_host.md R118): its lines expanded, for a message that fits (R117). -/

namespace Sys2Proof.Machine

/-- The actions for one block: LOADBLK, POLL, BLOCK (R118). -/
def blockActions (B : Block) : List HostAction :=
  (List.finRange 16).map (fun i => writeReg (msgAddr i) B[i]) ++ [.poll [], writeReg ctrlAddr 0x00000002]

/-- The actions from the STATUS check on: RDDIGEST follows it. -/
def checkAndDigest : List HostAction :=
  .statusCheck 8 :: (List.finRange 8).map fun j => readReg (digestAddr j)

theorem expandScript_blockLines (Bs : List Block) : expandScript (Bs.flatMap blockLines) = Bs.flatMap blockActions := by
  rw [expandScript, List.flatMap_assoc]
  rfl

theorem driverActions_eq (Bs : List Block) : driverActions Bs =
    writeReg ctrlAddr 0x00000001 :: (Bs.flatMap blockActions ++
      .poll [] :: writeReg ctrlAddr 0x00000003 :: checkAndDigest) := by
  have hsplit : expandScript (driverLines Bs) =
      expandScript [.init] ++ expandScript (Bs.flatMap blockLines) ++ expandScript [.poll, .final] := by
    simp only [expandScript, driverLines, List.flatMap_append]
  rw [driverActions, hsplit, expandScript_blockLines]
  simp only [List.append_assoc]
  rfl

theorem hashActions_of_fits {m : List Byte} (h : bitLength m < 2 ^ 64) :
    hashActions m = .ok (driverActions (messageBlocks m)) := by
  rw [hashActions, preprocess, if_neg (Nat.not_le.2 h)]

theorem hashActions_of_too_large {m : List Byte} (h : 2 ^ 64 ≤ bitLength m) :
    hashActions m = .error .inputTooLarge := by
  rw [hashActions, preprocess, if_pos h]

/-- The driver issues something only for a message that fits, and then its own actions. -/
theorem eq_driverActions {m : List Byte} {actions : List HostAction} (h : hashActions m = .ok actions) :
    actions = driverActions (messageBlocks m) := by
  rcases Nat.lt_or_ge (bitLength m) (2 ^ 64) with hm | hm
  · rw [hashActions_of_fits hm] at h
    exact (Except.ok.inj h).symm
  · rw [hashActions_of_too_large hm] at h
    cases h

/-- Settles O58, by the two branches of the preprocessor. -/
theorem inputTooLargeIssuesNothing : Obligations.InputTooLargeIssuesNothing :=
  ⟨fun _ => hashActions_of_too_large, fun _ h => ⟨_, hashActions_of_fits h⟩⟩

end Sys2Proof.Machine
end

