-- ==== Sys2Proof/Proofs/DriverRun.lean ====
section
/-! PROOFS. The driver's run from any state with the invariants (41_preprocessor_host.md R118), leg by leg: INIT, the
blocks, the POLL after them and FINAL, then the STATUS check, which decides whether the digest is read. -/

namespace Sys2Proof.Machine

/-! ## What the engine's steps and the driver's transactions keep -/

theorem Kept.and {J K : State → Prop} (hJ : Kept J) (hK : Kept K) : Kept fun s => J s ∧ K s where
  script := fun s l h => ⟨hJ.script s l h.1, hK.script s l h.2⟩
  deliver := fun s v h => ⟨hJ.deliver s v h.1, hK.deliver s v h.2⟩
  engine := fun s i s' h hi he => ⟨hJ.engine s i s' h.1 hi he, hK.engine s i s' h.2 hi he⟩

theorem kept_true : Kept fun _ => True := ⟨fun _ _ h => h, fun _ _ h => h, fun _ _ _ h _ _ => h⟩

/-- The micro-steps start no block. -/
theorem kept_idle : Kept fun s => s.busy = false where
  script := fun _ _ h => h
  deliver := fun _ _ h => h
  engine := fun s i s' h hi he => by
    by_contra hne
    rcases he.writes_busy (fun heq => hne (heq.trans h)) with ⟨rfl, -⟩ | ⟨-, hidle⟩
    · cases hi
    · exact hne hidle

/-- The micro-steps neither record an error nor clear the record (60_exceptions.md R241, R249). -/
theorem effect_microStep_err {i : Instr} {s s' : State} (hi : isMicroStep i = true) (he : Effect i s s') :
    s'.err = s.err := by
  cases he with
  | rejected c hc => cases i <;> simp [isMicroStep, rejection] at hi hc
  | init => cases hi
  | _ => simp

theorem kept_err (q : Bool → Prop) : Kept fun s => q s.err where
  script := fun _ _ h => h
  deliver := fun _ _ h => h
  engine := fun s i s' h hi he => by rwa [effect_microStep_err hi he]

/-- If `p` holds, an error is recorded. -/
abbrev ErrorIf (p : Prop) (s : State) : Prop := p → s.err = true

theorem kept_errorIf (p : Prop) : Kept (ErrorIf p) := kept_err (p → · = true)

/-- The block is idle, and an error is recorded or not as `e` says. -/
abbrev IdleWith (e : Bool) (s : State) : Prop := s.busy = false ∧ s.err = e

theorem kept_idleWith (e : Bool) : Kept (IdleWith e) := kept_idle.and (kept_err (· = e))

theorem effect_errorIf {p : Prop} {i : Instr} {s s' : State} (he : Effect i s s') (hinit : i ≠ .init)
    (h : ErrorIf p s) : ErrorIf p s' := by
  intro hp
  by_contra hclear
  exact hinit (he.clears_err (h hp) (Bool.eq_false_of_not_eq_true hclear))

/-- Transaction `T` keeps `J` and returns `n` words. -/
def KeepsAndReturns (J : State → Prop) (n : Nat) (T : Transaction) : Prop :=
  ∀ s s' : State, J s → Effect (decodeHT T) s s' →
    J s' ∧ ∃ ws : List Word, ws.length = n ∧ s'.replies = s.replies ++ ws

/-- An operation that is no read returns no word. -/
theorem effect_replies {i : Instr} {s s' : State} (hread : readValue i s = none) (he : Effect i s s') :
    s'.replies = s.replies := by
  cases he with
  | read v hv => rw [hread] at hv; cases hv
  | _ => simp

theorem write_keeps {J : State → Prop} {T : Transaction} {i : Instr} (hT : decodeHT T = i)
    (hread : ∀ s, readValue i s = none) (hJ : ∀ s s', J s → Effect i s s' → J s') : KeepsAndReturns J 0 T := by
  intro s s' hj he
  rw [hT] at he
  exact ⟨hJ s s' hj he, [], rfl, by rw [effect_replies (hread s) he, List.append_nil]⟩

theorem init_keeps : KeepsAndReturns (fun _ => True) 0 (htWord true ctrlAddr 0x00000001) :=
  write_keeps (i := .init) rfl (fun _ => rfl) fun _ _ h _ => h

theorem msgWrite_keeps {p : Prop} (n : Fin 16) (v : Word) :
    KeepsAndReturns (ErrorIf p) 0 (htWord true (msgAddr n) v) :=
  write_keeps (i := .wrMsg n v) (decodeHT_msg true n v) (fun _ => rfl) fun _ _ h he => effect_errorIf he nofun h

theorem block_keeps {p : Prop} : KeepsAndReturns (ErrorIf p) 0 (htWord true ctrlAddr 0x00000002) :=
  write_keeps (i := .block) rfl (fun _ => rfl) fun _ _ h he => effect_errorIf he nofun h

/-- FINAL starts no block. -/
theorem effect_final_idle {s s' : State} (h : s.busy = false) (he : Effect .final s s') : s'.busy = false := by
  by_contra hne
  rcases he.writes_busy (fun heq => hne (heq.trans h)) with ⟨hi, -⟩ | ⟨hi, -⟩ <;> cases hi

theorem final_keeps {p : Prop} :
    KeepsAndReturns (fun s => s.busy = false ∧ ErrorIf p s) 0 (htWord true ctrlAddr 0x00000003) :=
  write_keeps (i := .final) rfl (fun _ => rfl) fun _ _ h he =>
    ⟨effect_final_idle h.1 he, effect_errorIf he nofun h.2⟩

theorem digestRead_keeps {J : State → Prop} (hJ : Kept J) (j : Fin 8) :
    KeepsAndReturns J 1 (htWord false (digestAddr j) 0) := by
  intro s s' h he
  have hdecode : decodeHT (htWord false (digestAddr j) 0) = .rdDigest j := decodeHT_digest false j 0
  rw [hdecode] at he
  have hexec : Host.Outcome.next (deliver (digestValue j s) s) = .next s' := exec_of_effect he
  cases hexec
  exact ⟨hJ.deliver _ _ h, [digestValue j s], rfl, rfl⟩

/-! ## Legs of the driver's run -/

/-- A leg of a run, from `s` to `s'`: it reads `words`, leaves `rest` for the host to issue, and ends with the
invariants and `J`. -/
structure Leg (J : State → Prop) (s s' : State) (words : List Word) (rest : List HostAction) : Prop where
  reach : Reach s s'
  inv : Inv s'
  kept : J s'
  replies : s'.replies = s.replies ++ words
  script : schedules s'.script rest

theorem Leg.trans {J K : State → Prop} {s s1 s2 : State} {ws us : List Word} {rest rest' : List HostAction}
    (h : Leg J s s1 ws rest) (h' : Leg K s1 s2 us rest') : Leg K s s2 (ws ++ us) rest' where
  reach := h.reach.trans h'.reach
  inv := h'.inv
  kept := h'.kept
  replies := by rw [h'.replies, h.replies, List.append_assoc]
  script := h'.script

theorem Leg.with_kept {J K : State → Prop} {s s' : State} {ws : List Word} {rest : List HostAction}
    (h : Leg J s s' ws rest) (hK : K s') : Leg K s s' ws rest := { h with kept := hK }

/-- Transactions that each return `n` words, one after the other. -/
theorem transactions_leg {J : State → Prop} (hJ : Kept J) {n : Nat} {Ts : List Transaction}
    (hT : ∀ T ∈ Ts, KeepsAndReturns J n T) {s : State} {rest : List HostAction} (hi : Inv s) (hj : J s)
    (hs : schedules s.script (Ts.map .transaction ++ rest)) :
    ∃ s' words, Leg J s s' words rest ∧ words.length = n * Ts.length := by
  induction Ts generalizing s with
  | nil => exact ⟨s, [], ⟨.refl s, hi, hj, (List.append_nil _).symm, hs⟩, rfl⟩
  | cons T Ts ih =>
    obtain ⟨hhead, htail⟩ := List.forall_mem_cons.1 hT
    obtain ⟨g, l, hscript, hl⟩ := schedules_transaction hs
    obtain ⟨s0, s1, hj0, hi0, hs0, hr0, he, hreach, -⟩ := transaction_done hJ hi hj hscript
    obtain ⟨hj1, ws, hlen, hr1⟩ := hhead s0 s1 hj0 he
    have hl1 : schedules s1.script (Ts.map .transaction ++ rest) := by rwa [effect_script he, hs0]
    have hleg : Leg J s s1 ws _ := ⟨hreach, inv_effect hi0 he, hj1, hr0 ▸ hr1, hl1⟩
    obtain ⟨s2, us, hleg', hlen'⟩ := ih htail hleg.inv hleg.kept hleg.script
    exact ⟨s2, ws ++ us, hleg.trans hleg', by
      rw [List.length_append, hlen, hlen', List.length_cons, Nat.mul_succ, Nat.add_comm]⟩

theorem writes_leg {J : State → Prop} (hJ : Kept J) {Ts : List Transaction}
    (hT : ∀ T ∈ Ts, KeepsAndReturns J 0 T) {s : State} {rest : List HostAction} (hi : Inv s) (hj : J s)
    (hs : schedules s.script (Ts.map .transaction ++ rest)) :
    ∃ s', Leg J s s' [] rest := by
  obtain ⟨s', words, hleg, hlen⟩ := transactions_leg hJ hT hi hj hs
  rw [Nat.zero_mul] at hlen
  cases List.eq_nil_of_length_eq_zero hlen
  exact ⟨s', hleg⟩

theorem write_leg {J : State → Prop} (hJ : Kept J) {T : Transaction} (hT : KeepsAndReturns J 0 T) {s : State}
    {rest : List HostAction} (hi : Inv s) (hj : J s) (hs : schedules s.script (.transaction T :: rest)) :
    ∃ s', Leg J s s' [] rest :=
  writes_leg hJ (Ts := [T]) (List.forall_mem_singleton.2 hT) hi hj hs

/-- These words are those of `n` POLLs, all read off. -/
def PollsRead (n : Nat) (words : List Word) : Prop := ∀ rest, afterPolls n (words ++ rest) = some rest

theorem afterPolls_one (ws : List Word) : afterPolls 1 ws = afterPoll ws := by
  rw [afterPolls]
  cases afterPoll ws <;> rfl

theorem PollsRead.cons {n : Nat} {ws us : List Word} (hws : PollsRead 1 ws) (hus : PollsRead n us) :
    PollsRead (n + 1) (ws ++ us) := by
  intro rest
  rw [List.append_assoc, afterPolls, ← afterPolls_one, hws]
  exact hus rest

theorem poll_leg {J : State → Prop} (hJ : Kept J) {s : State} {rest : List HostAction} (hi : Inv s) (hj : J s)
    (hs : schedules s.script (.poll [] :: rest)) :
    ∃ s' words, Leg J s s' words rest ∧ s'.busy = false ∧ PollsRead 1 words := by
  obtain ⟨g, gaps, l, hscript, hl⟩ := schedules_poll hs
  obtain ⟨s', ws, w, hreach, hi', hj', hs', hidle, hrep, hws, hw⟩ := poll_done hJ gaps s g l hi hj hscript
  refine ⟨s', ws ++ [w], ⟨hreach, hi', hj', hrep, by rwa [hs']⟩, hidle, fun rest => ?_⟩
  rw [List.append_assoc]
  exact afterPolls_succ 0 ws w rest hws hw

/-- An INIT that finds the block busy is rejected (44_accumulator_sequencer.md R185). -/
theorem effect_init_busy {s : State} (h : s.busy = true) : Effect .init s (raise .busy s) :=
  .rejected .busy (by simp [rejection, acceptance, h])

/-- The host starts its script while a block is in flight, with no micro-step in between. -/
abbrev StartsBusy (s : State) : Prop := s.busy = true ∧ s.script.head?.map (·.gap) = some 0

/-- The INIT, which records an error if the script starts busy. -/
theorem init_leg {s : State} {rest : List HostAction} (hi : Inv s)
    (hs : schedules s.script (writeReg ctrlAddr 0x00000001 :: rest)) :
    ∃ s', Leg (ErrorIf (StartsBusy s)) s s' [] rest := by
  obtain ⟨g, l, hscript, hl⟩ := schedules_transaction hs
  by_cases hbusy : StartsBusy s
  · obtain ⟨hb, hgap⟩ := hbusy
    have hg : g = 0 := by simpa [hscript] using hgap
    have he : Effect .init { s with script := l } (raise .busy { s with script := l }) := effect_init_busy hb
    have hstep := (step_transaction hscript (.inl hg)).trans (exec_of_effect he)
    exact ⟨_, .step hstep, inv_effect (s := { s with script := l }) hi he, fun _ => raise_err _ _, by simp,
      by simpa using hl⟩
  · obtain ⟨s', hleg⟩ := write_leg kept_true init_keeps hi trivial hs
    exact ⟨s', hleg.with_kept fun h => absurd h hbusy⟩

theorem loadblk_leg {p : Prop} {B : Block} {s : State} {rest : List HostAction} (hi : Inv s) (hj : ErrorIf p s)
    (hs : schedules s.script ((List.finRange 16).map (fun i => writeReg (msgAddr i) B[i]) ++ rest)) :
    ∃ s', Leg (ErrorIf p) s s' [] rest := by
  have hkeeps : ∀ T ∈ (List.finRange 16).map (fun i => htWord true (msgAddr i) B[i]),
      KeepsAndReturns (ErrorIf p) 0 T :=
    List.forall_mem_map.2 fun i _ => msgWrite_keeps i B[i]
  exact writes_leg (kept_errorIf p) hkeeps hi hj (by rwa [List.map_map])

/-- The blocks, each loaded, waited for and started, and the POLL after them. -/
theorem blocks_leg {p : Prop} {Bs : List Block} {s : State} {rest : List HostAction} (hi : Inv s)
    (hj : ErrorIf p s) (hs : schedules s.script (Bs.flatMap blockActions ++ .poll [] :: rest)) :
    ∃ s' words, Leg (ErrorIf p) s s' words rest ∧ s'.busy = false ∧ PollsRead (Bs.length + 1) words := by
  have hJ : Kept (ErrorIf p) := kept_errorIf p
  induction Bs generalizing s with
  | nil => exact poll_leg hJ hi hj hs
  | cons B Bs ih =>
    rw [List.flatMap_cons, blockActions, List.append_assoc, List.append_assoc] at hs
    obtain ⟨s1, hload⟩ := loadblk_leg hi hj hs
    obtain ⟨s2, ws, hpoll, -, hws⟩ := poll_leg hJ hload.inv hload.kept hload.script
    obtain ⟨s3, hblock⟩ := write_leg hJ block_keeps hpoll.inv hpoll.kept hpoll.script
    obtain ⟨s4, us, hrest, hidle, hus⟩ := ih hblock.inv hblock.kept hblock.script
    exact ⟨s4, ws ++ us, hload.trans (hpoll.trans (hblock.trans hrest)), hidle, hws.cons hus⟩

/-- The driver comes to its STATUS check, with the block idle and with the words of its POLLs read. -/
theorem driver_comes_to_check {Bs : List Block} {s : State} (hi : Inv s)
    (hs : schedules s.script (driverActions Bs)) :
    ∃ s' polled, Leg (fun u => u.busy = false ∧ ErrorIf (StartsBusy s) u) s s' polled checkAndDigest ∧
      PollsRead (Bs.length + 1) polled := by
  rw [driverActions_eq] at hs
  obtain ⟨s1, hinit⟩ := init_leg hi hs
  obtain ⟨s2, polled, hblocks, hidle, hpolled⟩ := blocks_leg hinit.inv hinit.kept hinit.script
  obtain ⟨s3, hfinal⟩ := write_leg (kept_idle.and (kept_errorIf _)) final_keeps hblocks.inv
    ⟨hidle, hblocks.kept⟩ hblocks.script
  exact ⟨s3, polled, by
    simpa only [List.nil_append, List.append_nil] using hinit.trans (hblocks.trans hfinal), hpolled⟩

/-! ## The STATUS check and the digest -/

/-- With the block idle the host has the turn, whatever the gap (10_state.md R31). -/
theorem host_turn_of_idle {s : State} {g : Nat} (hi : Inv s) (hb : s.busy = false) :
    g = 0 ∨ (s.busy = false ∧ s.t = 0) := by
  obtain ⟨-, -, ht, -, -, -⟩ := hi
  exact .inr ⟨hb, ht hb⟩

theorem schedules_length {l : List HostEntry} {actions : List HostAction} (h : schedules l actions) :
    l.length = actions.length := by
  rw [← h, List.length_map]

theorem Leg.ended {J : State → Prop} {s s' : State} {ws : List Word} (h : Leg J s s' ws []) : s'.script = [] :=
  List.eq_nil_of_length_eq_zero (schedules_length h.script)

/-- With an error recorded the check leaves out the eight reads of the digest. -/
theorem check_failed_leg {s : State} (hi : Inv s) (hb : s.busy = false) (he : s.err = true)
    (hs : schedules s.script checkAndDigest) :
    ∃ s', Leg (IdleWith true) s s' [statusWord s] [] := by
  obtain ⟨g, l, hscript, hl⟩ := schedules_statusCheck hs
  have hstep := step_statusCheck hscript (host_turn_of_idle hi hb)
  have hnone : l.drop 8 = [] := List.drop_eq_nil_of_le (Nat.le_of_eq (schedules_length hl))
  rw [afterCheck_error he, hnone] at hstep
  exact ⟨_, .step hstep, hi, ⟨hb, he⟩, rfl, rfl⟩

/-- With none recorded the digest is read. -/
theorem check_passed_leg {s : State} (hi : Inv s) (hb : s.busy = false) (he : s.err = false)
    (hs : schedules s.script checkAndDigest) :
    ∃ s' words, Leg (IdleWith false) s s' ([statusWord s] ++ words) [] ∧ words.length = 8 := by
  obtain ⟨g, l, hscript, hl⟩ := schedules_statusCheck hs
  have hstep := step_statusCheck hscript (host_turn_of_idle hi hb)
  rw [afterCheck_ok he] at hstep
  have hcheck : Leg (IdleWith false) s _ [statusWord s] _ := ⟨.step hstep, hi, ⟨hb, he⟩, rfl, hl⟩
  have hkeeps : ∀ T ∈ (List.finRange 8).map (fun j => htWord false (digestAddr j) 0),
      KeepsAndReturns (IdleWith false) 1 T :=
    List.forall_mem_map.2 fun j _ => digestRead_keeps (kept_idleWith false) j
  obtain ⟨s', words, hdigest, hlen⟩ := transactions_leg (kept_idleWith false) hkeeps hcheck.inv hcheck.kept
    (by rw [List.map_map, List.append_nil]; exact hcheck.script)
  exact ⟨s', words, hcheck.trans hdigest, hlen⟩

/-! ## What the driver returns -/

theorem hashResult_error {m : List Byte} {polled : List Word} {status : Word}
    (hpolled : PollsRead (blockCount m.length + 1) polled) (herr : status.getLsbD 3 = true) :
    hashResult m (polled ++ [status]) = some (.error .errorRecorded) := by
  rw [hashResult, hpolled]
  exact if_pos herr

theorem hashResult_digest {m : List Byte} {polled words : List Word} {status : Word}
    (hpolled : PollsRead (blockCount m.length + 1) polled) (herr : status.getLsbD 3 = false)
    (hlen : words.length = 8) :
    ∃ d : HashWords, words = d.toList ∧ hashResult m (polled ++ ([status] ++ words)) = some (.ok (serialize d)) := by
  match words, hlen with
  | [d0, d1, d2, d3, d4, d5, d6, d7], _ =>
    refine ⟨#v[d0, d1, d2, d3, d4, d5, d6, d7], rfl, ?_⟩
    rw [hashResult, hpolled]
    exact if_neg (Bool.eq_false_iff.1 herr)

/-- Settles O59: the driver comes to its check with the block idle, and the rest of its run turns on err. -/
theorem driverFailsWithoutReadingTheDigest : Obligations.DriverFailsWithoutReadingTheDigest := by
  refine ⟨fun m hm => ?actions, fun s g skip rest hscript hturn => ⟨fun he => ?failed, fun he => ?passed⟩,
    fun m actions s hactions hs hi => ?run⟩
  case actions =>
    rw [hashActions_of_fits hm, driverActions_eq]
    simp only [List.append_assoc]
    rfl
  case failed => rw [step_statusCheck hscript hturn, afterCheck_error he]; rfl
  case passed => rw [step_statusCheck hscript hturn, afterCheck_ok he]; rfl
  case run =>
    rw [eq_driverActions hactions] at hs
    obtain ⟨s1, polled, hcheck, hpolled⟩ := driver_comes_to_check hi hs
    obtain ⟨hidle, hstart⟩ := hcheck.kept
    rw [messageBlocks_length] at hpolled
    cases he : s1.err with
    | true =>
      obtain ⟨s2, hend⟩ := check_failed_leg hcheck.inv hidle he hcheck.script
      have hrun := hcheck.trans hend
      obtain ⟨n, hn⟩ := hrun.reach
      obtain ⟨hb2, he2⟩ := hrun.kept
      have hbit : (statusWord s1).getLsbD 3 = true := (statusWord_err s1).trans he
      exact ⟨n, s2, _, hn, ⟨hrun.ended, hb2⟩, hrun.replies,
        fun _ => ⟨hashResult_error hpolled hbit, polled, _, rfl, hbit⟩,
        fun hclear => Bool.noConfusion (he2.symm.trans hclear), fun _ _ => he2⟩
    | false =>
      obtain ⟨s2, words, hend, hlen⟩ := check_passed_leg hcheck.inv hidle he hcheck.script
      have hrun := hcheck.trans hend
      obtain ⟨n, hn⟩ := hrun.reach
      obtain ⟨hb2, he2⟩ := hrun.kept
      have hbit : (statusWord s1).getLsbD 3 = false := (statusWord_err s1).trans he
      obtain ⟨d, hd, hresult⟩ := hashResult_digest hpolled hbit hlen
      exact ⟨n, s2, _, hn, ⟨hrun.ended, hb2⟩, hrun.replies,
        fun hset => Bool.noConfusion (hset.symm.trans he2),
        fun _ => ⟨polled, _, d, by rw [hd, List.append_assoc], hbit, hresult⟩,
        fun hb hg => Bool.noConfusion ((hstart ⟨hb, hg⟩).symm.trans he)⟩

end Sys2Proof.Machine
end

