-- ==== Sys2Proof/Proofs/MixingFunctions.lean ====
section
/-! PROOFS. The mixing functions of 42_schedule_expander.md R130, R131 and 43_compressor.md R150, R151: bit by bit, and
linear over XOR because the rotation and the shift they are made of are. -/

namespace Sys2Proof.Machine

/-! ## Linearity over XOR -/

/-- The XOR of two arguments is sent to the XOR of their values. -/
def XorLinear (f : Word → Word) : Prop := ∀ x y : Word, f (x ^^^ y) = f x ^^^ f y

theorem XorLinear.xor {f g : Word → Word} (hf : XorLinear f) (hg : XorLinear g) :
    XorLinear fun x => f x ^^^ g x := by
  intro x y
  simp only [hf x y, hg x y]
  ac_rfl

theorem xorLinear_rotr {n : Nat} (hn : n < 32) : XorLinear (rotr · n) := by
  intro x y
  apply BitVec.eq_of_getLsbD_eq
  intro i hi
  simp only [BitVec.getLsbD_xor, getLsbD_rotr _ hn hi]

theorem xorLinear_shr (n : Nat) : XorLinear (shr · n) :=
  fun _ _ => BitVec.ushiftRight_xor_distrib ..

/-- The XOR of two rotations and a shift, the form of R130 and R131. -/
theorem xorLinear_rotr_rotr_shr {m n : Nat} (hm : m < 32) (hn : n < 32) (p : Nat) :
    XorLinear fun x => rotr x m ^^^ rotr x n ^^^ shr x p :=
  ((xorLinear_rotr hm).xor (xorLinear_rotr hn)).xor (xorLinear_shr p)

/-- The XOR of three rotations, the form of R150 and R151. -/
theorem xorLinear_rotr_rotr_rotr {m n p : Nat} (hm : m < 32) (hn : n < 32) (hp : p < 32) :
    XorLinear fun x => rotr x m ^^^ rotr x n ^^^ rotr x p :=
  ((xorLinear_rotr hm).xor (xorLinear_rotr hn)).xor (xorLinear_rotr hp)

theorem xorLinear_sigma0 : XorLinear sigma0 := xorLinear_rotr_rotr_shr (by decide) (by decide) 3

theorem xorLinear_sigma1 : XorLinear sigma1 := xorLinear_rotr_rotr_shr (by decide) (by decide) 10

theorem xorLinear_bigSigma0 : XorLinear bigSigma0 :=
  xorLinear_rotr_rotr_rotr (by decide) (by decide) (by decide)

theorem xorLinear_bigSigma1 : XorLinear bigSigma1 :=
  xorLinear_rotr_rotr_rotr (by decide) (by decide) (by decide)

/-! ## Bit by bit -/

theorem getLsbD_rotr_rotr_shr {m n i : Nat} (x : Word) (hm : m < 32) (hn : n < 32) (p : Nat) (hi : i < 32) :
    (rotr x m ^^^ rotr x n ^^^ shr x p).getLsbD i =
      (x.getLsbD ((i + m) % 32) ^^ x.getLsbD ((i + n) % 32) ^^ x.getLsbD (i + p)) := by
  rw [BitVec.getLsbD_xor, BitVec.getLsbD_xor, getLsbD_rotr x hm hi, getLsbD_rotr x hn hi, getLsbD_shr]

theorem getLsbD_rotr_rotr_rotr {m n p i : Nat} (x : Word) (hm : m < 32) (hn : n < 32) (hp : p < 32) (hi : i < 32) :
    (rotr x m ^^^ rotr x n ^^^ rotr x p).getLsbD i =
      (x.getLsbD ((i + m) % 32) ^^ x.getLsbD ((i + n) % 32) ^^ x.getLsbD ((i + p) % 32)) := by
  rw [BitVec.getLsbD_xor, BitVec.getLsbD_xor, getLsbD_rotr x hm hi, getLsbD_rotr x hn hi, getLsbD_rotr x hp hi]

/-- Settles O36: bits and linearity from the rotations and the shift; the spec's sixteen values are computed. -/
theorem scheduleMixersAreLinear : Obligations.ScheduleMixersAreLinear :=
  ⟨fun x _ hi =>
    ⟨getLsbD_rotr_rotr_shr x (by decide) (by decide) 3 hi,
     getLsbD_rotr_rotr_shr x (by decide) (by decide) 10 hi,
     getLsbD_rotr_rotr_rotr x (by decide) (by decide) (by decide) hi,
     getLsbD_rotr_rotr_rotr x (by decide) (by decide) (by decide) hi⟩,
   xorLinear_sigma0, xorLinear_sigma1, xorLinear_bigSigma0, xorLinear_bigSigma1, by decide⟩

end Sys2Proof.Machine
end

