-- ==== Sys2Proof/Proofs/ScheduleExpander.lean ====
section
/-! PROOFS. What ROUND(t) writes (43_compressor.md R159, R160, with EXPAND of 42_schedule_expander.md R133), runs of
rounds, and the loops of Expand (R134) and Compress (R162). -/

namespace Sys2Proof.Machine

/-! ## One round -/

/-- Settles O38: the schedule is `expandWord`'s, whose words are those of R133. -/
theorem roundResult : Obligations.RoundResult := by
  intro k s hb ht
  refine ⟨expandWord k s.W, fun i hi => ?other, fun hlow => ?copied, expandWord_self k s.W, _, _, rfl, rfl,
    exec_of_effect (.round k hb ht)⟩
  case other => exact expandWord_ne k s.W i.val i.isLt (Fin.val_ne_of_ne hi)
  case copied => rw [expandWord_low k s.W hlow]

/-! ## Runs of rounds -/

/-- The engine's turn at a round (30_encoding.md R85, R86). -/
theorem step_round {s : State} {k : Fin 64} (hs : s.script = []) (hb : s.busy = true) (ht : s.t.toNat = k.val) :
    step s = .next (advanceRound (mixRound k (expandAt k s))) := by
  have hdecode : decodeSQ (sequencerWord s) = .ok (.round k) := by
    rw [sequencerWord, hb]
    exact decodeSQ_round s.t k ht
  rw [step_engine_empty hs hdecode]
  exact exec_of_effect (.round k hb ht)

/-- ROUND(t) advances the counter, which has room for 64. -/
theorem round_t_toNat {s : State} {k : Fin 64} (ht : s.t.toNat = k.val) :
    (advanceRound (mixRound k (expandAt k s))).t.toNat = s.t.toNat + 1 := by
  have hk := k.isLt
  exact BitVec.toNat_add_of_lt (show s.t.toNat + 1 < 128 by omega)

/-- With the host's script issued, the engine runs n rounds one after the other while the counter stays within 64, and
what every round keeps holds after them. -/
theorem run_rounds {J : State → Prop}
    (hJ : ∀ (s : State) (k : Fin 64), J s → s.t.toNat = k.val → J (advanceRound (mixRound k (expandAt k s))))
    {s : State} (hj : J s) (hb : s.busy = true) (hs : s.script = []) (n : Nat) (hn : s.t.toNat + n ≤ 64) :
    ∃ s' : State, Host.Core.run core n s = .next s' ∧ J s' ∧ s'.busy = true ∧ s'.script = [] ∧
      s'.t.toNat = s.t.toNat + n := by
  induction n with
  | zero => exact ⟨s, rfl, hj, hb, hs, rfl⟩
  | succ n ih =>
    obtain ⟨s1, hrun, hj1, hb1, hs1, ht1⟩ := ih (by omega)
    obtain ⟨k, hk⟩ : ∃ k : Fin 64, s1.t.toNat = k.val := ⟨⟨s1.t.toNat, by omega⟩, rfl⟩
    exact ⟨_, run_snoc hrun (step_round hs1 hb1 hk), hJ s1 k hj1 hk, hb1, hs1,
      by rw [round_t_toNat hk, ht1, Nat.add_assoc]⟩

/-- The host's turn at a BLOCK that the acceptance table takes (44_accumulator_sequencer.md R181, R186). -/
theorem step_block {s : State} {g : Nat} {rest : List HostEntry}
    (hs : s.script = ⟨g, .transaction 0x2000000002⟩ :: rest) (hturn : g = 0 ∨ (s.busy = false ∧ s.t = 0))
    (hb : s.busy = false) (hp : s.phase ≠ .final) :
    step s = .next (startRounds (loadWorking (loadSchedule { s with script := rest }))) := by
  have hdecode : decodeHT 0x2000000002 = .block := by decide
  rw [step_transaction hs hturn, hdecode]
  exact exec_of_effect (.block hb hp)

/-- An accepted BLOCK, the only action of the script, and its 64 rounds: the block is in flight from the H and M at
acceptance, and all its rounds are done. -/
theorem run_block_rounds {s : State} (hb : s.busy = false) (hp : s.phase ≠ .final)
    (hs : s.script = [⟨0, .transaction 0x2000000002⟩]) :
    ∃ s', Host.Core.run core 65 s = .next s' ∧ InFlight s.H s.M s' ∧ s'.t = 64 := by
  obtain ⟨s', hrun, hflight, -, -, ht⟩ := run_rounds (fun _ k h hk => h.round k hk)
    (inFlight_of_block { s with script := [] }) rfl rfl 64 (Nat.le_refl 64)
  exact ⟨s', (run_step (step_block hs (.inl rfl) hb hp)).trans hrun, hflight, BitVec.eq_of_toNat_eq ht⟩

/-! ## The loop of Compress -/

/-- The first n rounds are a left fold over the round numbers. -/
theorem compressTo_eq_foldl (v : Working) (W : Schedule) (n : Nat) (hn : n ≤ 64) :
    compressTo n hn v W = (List.finRange n).foldl
      (fun u i => roundWorking u (roundConstant (i.castLE hn)) W[i.castLE hn]) v := by
  induction n with
  | zero => rfl
  | succ n ih =>
    rw [compressTo, ih, List.finRange_succ_last, List.foldl_append, List.foldl_map]
    rfl

/-- Settles O48: the recurrence is `expand`'s own, the run puts the block in flight and ends its rounds, and the loop of
64 rounds is a fold of `roundWorking`. -/
theorem expandAndCompressFollowTheirLoops : Obligations.ExpandAndCompressFollowTheirLoops := by
  refine ⟨fun B i => expand_low B i.val i.isLt, expand_high, fun H0 B0 s hflight ht => (hflight.done ht).2,
    fun s hb hp _ hs => ?run, fun S W => congrArg Working.toWords (compressTo_eq_foldl (.ofWords S) W 64 _)⟩
  case run =>
    obtain ⟨s', hrun, hflight, ht⟩ := run_block_rounds hb hp hs
    exact ⟨s', hrun, hflight.1, ht, (hflight.done ht).2⟩

end Sys2Proof.Machine
end

