-- ==== Sys2Proof/Proofs/Compressor.lean ====
section
/-! PROOFS. The compression engine: Ch and Maj bit by bit (43_compressor.md R152, R153), where the micro-steps are
refused (R159), what the host cannot touch while a block is in flight (R161), and what that block computes (R163). -/

namespace Sys2Proof.Machine

/-! ## Ch and Maj -/

theorem choose_bit : ∀ x y z : Bool, ((x && y) ^^ (!x && z)) = if x then y else z := by decide

theorem majority_bit : ∀ x y z : Bool,
    ((x && y) ^^ (x && z) ^^ (y && z)) = decide (2 ≤ x.toNat + y.toNat + z.toNat) := by decide

/-- R152: the complement has bits below 32 only, and from there on every bit of the arguments is 0. -/
theorem getLsbD_ch (e f g : Word) (i : Nat) :
    (ch e f g).getLsbD i = if e.getLsbD i then f.getLsbD i else g.getLsbD i := by
  rcases Nat.lt_or_ge i 32 with hi | hi
  · rw [ch, BitVec.getLsbD_xor, BitVec.getLsbD_and, BitVec.getLsbD_and, BitVec.getLsbD_not, decide_eq_true hi,
      Bool.true_and, choose_bit]
  · simp only [BitVec.getLsbD_of_ge _ i hi, ite_self]

/-- R153. -/
theorem getLsbD_maj (a b c : Word) (i : Nat) :
    (maj a b c).getLsbD i = decide (2 ≤ (a.getLsbD i).toNat + (b.getLsbD i).toNat + (c.getLsbD i).toNat) := by
  rw [maj, BitVec.getLsbD_xor, BitVec.getLsbD_xor, BitVec.getLsbD_and, BitVec.getLsbD_and, BitVec.getLsbD_and,
    majority_bit]

/-- Settles O35, by the truth table of each bit. -/
theorem chooseAndMajorityBitByBit : Obligations.ChooseAndMajorityBitByBit := ⟨getLsbD_ch, getLsbD_maj⟩

/-! ## Where the micro-steps stop -/

/-- Settles O40: the two conditions are what `Enabled` says of ROUND and FOLD. -/
theorem microStepsStopWhereNotEnabled : Obligations.MicroStepsStopWhereNotEnabled :=
  ⟨fun k _ h => exec_of_not_enabled (i := .round k) h, fun _ h => exec_of_not_enabled (i := .fold) h⟩

/-! ## The host and the engine while busy = 1 -/

/-- R161, R190: with busy = 1 INIT, BLOCK and FINAL have no effect but their error, and no other host transaction
writes the engine's registers. -/
theorem Effect.host_frame_of_busy {i : Instr} {s s' : State} (he : Effect i s s') (hb : s.busy = true)
    (hi : isMicroStep i = false) :
    s'.H = s.H ∧ s'.work = s.work ∧ s'.W = s.W ∧ s'.t = s.t ∧ s'.busy = s.busy ∧ s'.phase = s.phase := by
  cases he with
  | init hidle | block hidle _ | final hidle _ => exact Bool.noConfusion (hb.symm.trans hidle)
  | round | fold => cases hi
  | _ => simp

/-- R159, R182: a micro-step's effect is a round's or the FOLD's; it is never rejected and reads no word. -/
theorem Effect.microStep_cases {i : Instr} {s s' : State} (he : Effect i s s') (hi : isMicroStep i = true) :
    (∃ k : Fin 64, s.t.toNat = k.val ∧ s' = advanceRound (mixRound k (expandAt k s))) ∨
      (s.t = 64 ∧ s' = endRounds (foldWords s)) := by
  cases he with
  | round k _ ht => exact .inl ⟨k, ht, rfl⟩
  | fold _ ht => exact .inr ⟨ht, rfl⟩
  | rejected c hc => cases i <;> simp [isMicroStep, rejection] at hi hc
  | read v hv => cases i <;> simp [isMicroStep, readValue] at hi hv
  | _ => cases hi

/-- Settles O46. -/
theorem hostCannotDisturbABlockInFlight : Obligations.HostCannotDisturbABlockInFlight := by
  intro i s s' hb hi hexec
  obtain ⟨hH, hwork, hW, ht, hbusy, hphase⟩ := (effect_of_exec hexec).host_frame_of_busy hb hi
  exact ⟨hH, hwork, hW, ht, hbusy.trans hb, hphase⟩

/-! ## The block in flight -/

/-- R186: a BLOCK that the acceptance table takes loads the block. -/
theorem effect_block_accepted {s s' : State} (haccept : rejection .block s = none) (he : Effect .block s s') :
    s' = startRounds (loadWorking (loadSchedule s)) := by
  cases he with
  | rejected c hc => rw [haccept] at hc; cases hc
  | read v hv => cases hv
  | block => rfl

section
variable {H0 : HashWords} {B0 : Block} {s : State} (h : InFlight H0 B0 s)
include h

/-- R285: with t ≤ 64 the sequencer word is a round's or the FOLD's. -/
theorem InFlight.decodeSQ_ok : ∃ i, decodeSQ (sequencerWord s) = .ok i := by
  obtain ⟨hb, -, -, ⟨hle, -⟩, -⟩ := h
  rw [sequencerWord, hb]
  rcases Nat.lt_or_eq_of_le hle with hlt | heq
  · exact ⟨.round ⟨s.t.toNat, hlt⟩, decodeSQ_round s.t ⟨s.t.toNat, hlt⟩ rfl⟩
  · have h64 : s.t = 64 := BitVec.eq_of_toNat_eq heq
    exact ⟨.fold, h64 ▸ decodeSQ_fold⟩

/-- With a block in flight the machine neither waits nor stops: but for a RESET the next transition is an enabled
operation. -/
theorem InFlight.fetch_run (hreset : ResetNotNext s) :
    ∃ i l, Enabled i s ∧ fetch s = .run i { s with script := l } := by
  obtain ⟨j, hj⟩ := h.decodeSQ_ok
  rcases fetch_cases s with ⟨i, l, hi, hf⟩ | ⟨i, l, hi, hf⟩ | ⟨l, hf⟩ | ⟨-, hidle, -⟩ | ⟨e, -, he, -⟩
  · exact ⟨i, l, enabled_of_not_microStep hi s, hf⟩
  · exact ⟨i, l, (enabled_of_decodeSQ hi).2, hf⟩
  · exact absurd hf (hreset _)
  · rw [hj] at hidle; cases hidle
  · rw [hj] at he; cases he

/-- R163, R190: every operation keeps the block in flight or is its FOLD. -/
theorem InFlight.effect {i : Instr} {s' : State} (he : Effect i s s') :
    InFlight H0 B0 s' ∨ (s.t = 64 ∧ s' = endRounds (foldWords s)) := by
  cases hi : isMicroStep i with
  | false =>
    obtain ⟨hH, hwork, hW, ht, hbusy, hphase⟩ := he.host_frame_of_busy h.1 hi
    exact .inl (h.congr hH hwork hW ht hbusy hphase)
  | true =>
    rcases he.microStep_cases hi with ⟨k, hk, rfl⟩ | hfold
    · exact .inl (h.round k hk)
    · exact .inr hfold

/-- Every step but a RESET keeps the block in flight or is its FOLD, from the state with some script left. -/
theorem InFlight.step_next (hreset : ResetNotNext s) :
    ∃ s', step s = .next s' ∧
      (InFlight H0 B0 s' ∨ (s.t = 64 ∧ ∃ l, s' = endRounds (foldWords { s with script := l }))) := by
  obtain ⟨i, l, hen, hf⟩ := h.fetch_run hreset
  obtain ⟨s', he⟩ : ∃ s', Effect i { s with script := l } s' := effect_exists hen
  have hscript : InFlight H0 B0 { s with script := l } := h
  refine ⟨s', by rw [step, hf]; exact exec_of_effect he, ?_⟩
  exact (hscript.effect he).imp_right fun ⟨ht, hfold⟩ => ⟨ht, l, hfold⟩

end

/-- Settles O49: the invariant `InFlight`, from BLOCK over every step to the FOLD. -/
theorem blockInFlightComputesCompress : Obligations.BlockInFlightComputesCompress := by
  refine ⟨fun s s' haccept hexec => ?accepted, fun H0 B0 s h hreset => ?step, fun H0 B0 s h ht => h.done ht⟩
  case accepted =>
    rw [effect_block_accepted haccept (effect_of_exec hexec)]
    exact inFlight_of_block s
  case step =>
    obtain ⟨s', hstep, hflight | ⟨ht, l, rfl⟩⟩ := h.step_next hreset
    · exact ⟨s', hstep, .inl hflight⟩
    · have hphase : s.phase = .accum := h.2.1
      exact ⟨_, hstep, .inr ⟨ht, rfl, rfl, hphase, h.fold ht⟩⟩

end Sys2Proof.Machine
end

