-- ==== Sys2Proof/Proofs/AccumulatorSequencer.lean ====
section
/-! PROOFS. The accumulator and the commands of 44_accumulator_sequencer.md: what each command does or is rejected with
(R181, R184 to R187), FOLD (R182), the sequencer's arrows (R189), one block's update (R192) and the digest's bytes
(R193). -/

namespace Sys2Proof.Machine

/-! ## Commands -/

/-- R242: a rejected operation leaves the state with its error recorded. -/
theorem exec_of_rejection {i : Instr} {s : State} {c : CmdError} (h : rejection i s = some c) :
    exec i s = .next (withError (errorCode c) s) := by
  rw [exec_rejected h, raise_eq_withError]

/-- Settles O22: NOP's meaning is the state itself, and the STATUS word of R184 is computed from its fields. -/
theorem nopHasNoEffect : Obligations.NopHasNoEffect := by
  refine ⟨by decide, by decide, fun s => rfl, fun s hb ht hp herr hcode => ?_⟩
  rw [statusWord, hb, ht, hp, herr, hcode]
  rfl

/-- Settles O23, by the busy column of R181. -/
theorem initStartsAnInvocation : Obligations.InitStartsAnInvocation := by
  refine ⟨by decide, fun s hb => exec_of_effect (.init hb), fun s hb => exec_of_rejection (c := .busy) ?_⟩
  rw [rejection, hb, acceptance]

/-- Settles O24: the schedule BLOCK leaves is `withBlock`, M in the words 0 to 15 and the old words from there on. -/
theorem blockStartsACompression : Obligations.BlockStartsACompression := by
  refine ⟨by decide, fun s hb hp => ⟨withBlock s.M s.W, fun i => ?copied, fun i hi => ?kept,
    exec_of_effect (.block hb hp)⟩, fun s hb => exec_of_rejection (c := .busy) ?busy,
    fun s hb hp => exec_of_rejection (c := .sequence) ?sequence⟩
  case copied => exact withBlock_low s.M s.W i.val i.isLt
  case kept => exact withBlock_high s.M s.W i.val (Nat.not_lt.2 hi) i.isLt
  case busy => rw [rejection, hb, acceptance]
  case sequence => rw [rejection, hb, hp, acceptance]

theorem acceptance_final_sequence {p : Phase} (h : p ≠ .accum) : acceptance .final false p = some .sequence := by
  cases p with
  | accum => exact absurd rfl h
  | idle | final => rfl

/-- Settles O25, by the busy column and the phases of R181. -/
theorem finalEndsTheInvocation : Obligations.FinalEndsTheInvocation := by
  refine ⟨by decide, fun s hb hp => exec_of_effect (.final hb hp), fun s hb => exec_of_rejection (c := .busy) ?busy,
    fun s hb hp => exec_of_rejection (c := .sequence) ?sequence⟩
  case busy => rw [rejection, hb, acceptance]
  case sequence => rw [rejection, hb, acceptance_final_sequence hp]

/-! ## The acceptance table -/

theorem rejection_of_command {i : Instr} {c : Command} (h : commandOf i = some c) (s : State) :
    rejection i s = acceptance c s.busy s.phase := by
  cases i <;> cases h <;> rfl

theorem not_microStep_of_command {i : Instr} {c : Command} (h : commandOf i = some c) : isMicroStep i = false := by
  cases i <;> cases h <;> rfl

/-- R242: an operation that is not rejected records no error. -/
theorem Effect.no_new_error {i : Instr} {s s' : State} (he : Effect i s s') (haccept : rejection i s = none) :
    s'.everErr = s.everErr ∧ (s'.err = true → s.err = true) := by
  cases he with
  | rejected c hc => rw [haccept] at hc; cases hc
  | _ => simp

/-- Settles O27: the table is what rejects a command, and a command that is not rejected has another effect. -/
theorem commandsFollowTheAcceptanceTable : Obligations.CommandsFollowTheAcceptanceTable := by
  intro i c s hcommand
  rw [← rejection_of_command hcommand s]
  refine ⟨fun e hreject => exec_of_rejection hreject, fun haccept => ?accepted⟩
  case accepted =>
    obtain ⟨s', he⟩ := effect_exists (enabled_of_not_microStep (not_microStep_of_command hcommand) s)
    exact ⟨s', exec_of_effect he, he.no_new_error haccept⟩

/-! ## FOLD and one block's update -/

/-- R182: each word is added on its own. -/
theorem addWords_toWords (x : HashWords) (v : Working) : addWords x v.toWords =
    #v[x[0] + v.a, x[1] + v.b, x[2] + v.c, x[3] + v.d, x[4] + v.e, x[5] + v.f, x[6] + v.g, x[7] + v.h] := by
  ext i hi : 1
  rw [addWords, Vector.getElem_zipWith]
  interval_cases i <;> rfl

/-- Settles O39: FOLD adds the working registers in register order. -/
theorem foldResult : Obligations.FoldResult := by
  intro s hb ht
  rw [exec_of_effect (.fold hb ht), ← addWords_toWords]
  rfl

/-- The engine's turn at the FOLD (30_encoding.md R85, R86). -/
theorem step_fold {s : State} (hs : s.script = []) (hb : s.busy = true) (ht : s.t = 64) :
    step s = .next (endRounds (foldWords s)) := by
  have hdecode : decodeSQ (sequencerWord s) = .ok .fold := by
    rw [sequencerWord, hb, ht]
    exact decodeSQ_fold
  rw [step_engine_empty hs hdecode]
  exact exec_of_effect (.fold hb ht)

/-- What the engine's micro-steps leave as it was in `s`: M, the error record and the host's replies. -/
abbrev SameForHost (s u : State) : Prop :=
  u.M = s.M ∧ u.err = s.err ∧ u.errcode = s.errcode ∧ u.replies = s.replies

/-- Settles O50: BLOCK puts the block in flight, each round keeps it there, and the FOLD leaves its update. -/
theorem blockUpdatesTheAccumulator : Obligations.BlockUpdatesTheAccumulator := by
  intro s hb hp hs _
  obtain ⟨u, hrounds, ⟨hflight, hM, herr, hcode, hreplies⟩, hbusy, hscript, hround⟩ :=
    run_rounds (J := fun u => InFlight s.H s.M u ∧ SameForHost s u) (fun _ k h hk => ⟨h.1.round k hk, h.2⟩)
      ⟨inFlight_of_block { s with script := [] }, rfl, rfl, rfl, rfl⟩ rfl rfl 64 (Nat.le_refl 64)
  have ht : u.t = 64 := BitVec.eq_of_toNat_eq hround
  have hrun := (run_step (step_block hs (.inl rfl) hb hp)).trans (run_snoc hrounds (step_fold hscript hbusy ht))
  exact ⟨_, hrun, hflight.fold ht, hM, rfl, rfl, hflight.2.1, herr, hcode, hreplies, hscript⟩

/-! ## The sequencer's transition relation -/

/-- An operation has one effect only. -/
theorem Effect.unique {i : Instr} {s s1 s2 : State} (h1 : Effect i s s1) (h2 : Effect i s s2) : s1 = s2 :=
  Host.Outcome.next.inj ((exec_of_effect h1).symm.trans (exec_of_effect h2))

/-- R189: the operations with an arrow of their own move along it where they are accepted. -/
theorem Effect.arrow {i : Instr} {s s' : State} (he : Effect i s s') (hinv : Inv s) (haccept : rejection i s = none)
    (hmoves : movesSequencer i = true) : Arrow (some i) (sequencer s) (sequencer s') := by
  obtain ⟨hbusyAccum, -, hidle, -, -, -⟩ := hinv
  cases he with
  | rejected c hc => rw [haccept] at hc; cases hc
  | read v hv => cases i <;> cases hmoves <;> cases hv
  | nop | wrMsg => cases hmoves
  | init hb => simpa [sequencer, hb, hidle hb] using Arrow.init s.phase
  | block hb hp =>
    have hphase : s.phase = .idle ∨ s.phase = .accum := by
      cases h : s.phase with
      | final => exact absurd h hp
      | idle => exact .inl rfl
      | accum => exact .inr rfl
    simpa [sequencer, hb, hidle hb] using Arrow.block s.phase hphase
  | final hb hp => simpa [sequencer, hb, hp, hidle hb] using Arrow.final
  | round k hb ht => simpa [sequencer, hb, hbusyAccum hb] using Arrow.round k s.t ht
  | fold hb ht => simpa [sequencer, hb, ht, hbusyAccum hb] using Arrow.fold

/-- R189: what is rejected, and what has no arrow, leaves (busy, phase, t) as it was. -/
theorem Effect.sequencer_eq {i : Instr} {s s' : State} (he : Effect i s s')
    (h : rejection i s ≠ none ∨ movesSequencer i = false) : sequencer s' = sequencer s := by
  rcases h with hreject | hmoves
  · obtain ⟨c, hc⟩ := Option.ne_none_iff_exists'.1 hreject
    rw [he.unique (.rejected c hc)]
    simp
  · cases he with
    | init | block | final | round | fold => cases hmoves
    | _ => simp

/-- Settles O44: the arrow of each effect, and RESET's from any state. -/
theorem sequencerFollowsTheTransitionRelation : Obligations.SequencerFollowsTheTransitionRelation := by
  refine ⟨fun i s s' hinv hexec => ?_, fun s => .reset (sequencer s)⟩
  have he := effect_of_exec hexec
  exact ⟨fun h => he.arrow hinv h.1 h.2, he.sequencer_eq⟩

/-! ## The digest's bytes -/

/-- Settles O57: byte 4j + k of the serialization is byte k of word j, which is a shift and a truncation. -/
theorem digestBytesAreBigEndian : Obligations.DigestBytesAreBigEndian := by
  intro H j k
  have hword : (4 * j.val + k.val) / 4 = j.val := by omega
  have hbyte : (4 * j.val + k.val) % 4 = k.val := by omega
  simp only [serialize, Vector.getElem_ofFn, hword, hbyte]
  rfl

end Sys2Proof.Machine
end

