-- ==== Sys2Proof/Proofs/HashOnCore.lean ====
section
/-! PROOFS. End-to-end correctness (44_accumulator_sequencer.md R195): the driver's run from an idle block, action by
action, with the value that the accumulator holds or is about to hold. -/

namespace Sys2Proof.Machine

/-! ## One transaction -/

/-- Transaction `T` takes a state with `J` to one with `K` and returns the words `ws`. -/
def Takes (J : State → Prop) (T : Transaction) (K : State → Prop) (ws : List Word) : Prop :=
  ∀ s s' : State, J s → Effect (decodeHT T) s s' → K s' ∧ s'.replies = s.replies ++ ws

/-- An operation has one effect, so it is enough to know one for each state. -/
theorem takes_of_effect {J K : State → Prop} {T : Transaction} {ws : List Word} {i : Instr} (hT : decodeHT T = i)
    (f : State → State)
    (h : ∀ s, J s → Effect i s (f s) ∧ K (f s) ∧ (f s).replies = s.replies ++ ws) : Takes J T K ws := by
  intro s s' hj he
  obtain ⟨heff, hk, hreplies⟩ := h s hj
  rw [hT] at he
  rw [he.unique heff]
  exact ⟨hk, hreplies⟩

theorem transaction_leg {J K : State → Prop} (hJ : Kept J) {T : Transaction} {ws : List Word} (hT : Takes J T K ws)
    {s : State} {rest : List HostAction} (hi : Inv s) (hj : J s)
    (hs : schedules s.script (.transaction T :: rest)) :
    ∃ s', Leg K s s' ws rest := by
  obtain ⟨g, l, hscript, hl⟩ := schedules_transaction hs
  obtain ⟨s0, s', hj0, hi0, hs0, hr0, he, hreach, -⟩ := transaction_done hJ hi hj hscript
  obtain ⟨hk, hr⟩ := hT s0 s' hj0 he
  exact ⟨s', hreach, inv_effect hi0 he, hk, hr0 ▸ hr, by rwa [effect_script he, hs0]⟩

/-- One transaction an index, in the order of a list; `J is` is what holds while those of `is` are still to come. -/
theorem indexed_leg {ι : Type} {J : List ι → State → Prop} (hJ : ∀ is, Kept (J is)) {T : ι → Transaction}
    {w : ι → List Word} (hT : ∀ i is, Takes (J (i :: is)) (T i) (J is) (w i)) {is : List ι} {s : State}
    {rest : List HostAction} (hi : Inv s) (hj : J is s)
    (hs : schedules s.script (is.map (fun i => .transaction (T i)) ++ rest)) :
    ∃ s', Leg (J []) s s' (is.flatMap w) rest := by
  induction is generalizing s with
  | nil => exact ⟨s, .refl s, hi, hj, (List.append_nil _).symm, hs⟩
  | cons i is ih =>
    obtain ⟨s1, hhead⟩ := transaction_leg (hJ _) (hT i is) hi hj hs
    obtain ⟨s2, htail⟩ := ih hhead.inv hhead.kept hhead.script
    exact ⟨s2, hhead.trans htail⟩

/-! ## What the engine keeps between the driver's actions -/

/-- No error is recorded, the history flag is `e`, the phase is `p`, and the accumulator holds `H`, or will once the
block in flight is folded (R192). -/
structure Accumulating (e : Bool) (p : Phase) (H : HashWords) (s : State) : Prop where
  err : s.err = false
  everErr : s.everErr = e
  phase : s.phase = p
  value : (s.busy = false ∧ s.H = H) ∨ ∃ H0 B0, InFlight H0 B0 s ∧ blockUpdate H0 B0 = H

theorem Effect.enabled {i : Instr} {s s' : State} (he : Effect i s s') : Enabled i s := by
  by_contra hdisabled
  have hexec := exec_of_effect he
  rw [exec_of_not_enabled hdisabled] at hexec
  cases hexec

/-- R159, R182: the micro-steps are enabled with busy = 1 only. -/
theorem busy_of_enabled {i : Instr} {s : State} (hi : isMicroStep i = true) (h : Enabled i s) : s.busy = true := by
  cases i with
  | round k => exact h.1
  | fold => exact h.1
  | _ => cases hi

/-- R190: a round goes on with the block in flight, and the FOLD leaves its update in the accumulator. -/
theorem kept_accumulating (e : Bool) (p : Phase) (H : HashWords) : Kept (Accumulating e p H) where
  script := fun _ _ ⟨herr, hever, hp, hvalue⟩ => ⟨herr, hever, hp, hvalue⟩
  deliver := fun _ _ ⟨herr, hever, hp, hvalue⟩ => ⟨herr, hever, hp, hvalue⟩
  engine := by
    rintro s i s' ⟨herr, hever, hp, hvalue⟩ hi he
    have hb : s.busy = true := busy_of_enabled hi he.enabled
    obtain ⟨H0, B0, hflight, hH⟩ := hvalue.resolve_left fun h => Bool.noConfusion (h.1.symm.trans hb)
    rcases he.microStep_cases hi with ⟨k, hk, rfl⟩ | ⟨ht, rfl⟩
    · exact ⟨herr, hever, hp, .inr ⟨H0, B0, hflight.round k hk, hH⟩⟩
    · exact ⟨herr, hever, hp, .inl ⟨rfl, (hflight.fold ht).trans hH⟩⟩

/-- The micro-steps do not write M (10_state.md R24). -/
theorem kept_M (q : Block → Prop) : Kept fun s => q s.M where
  script := fun _ _ h => h
  deliver := fun _ _ h => h
  engine := fun s i s' h hi he => by
    rcases he.microStep_cases hi with ⟨k, -, rfl⟩ | ⟨-, rfl⟩ <;> exact h

/-- M holds the words of `B`, but for those at the indices `is`, which the host has yet to write. -/
abbrev LoadedBut (B : Block) (is : List (Fin 16)) (M : Block) : Prop := ∀ i : Fin 16, i ∉ is → M[i] = B[i]

theorem loadedBut_set {B M : Block} {i : Fin 16} {is : List (Fin 16)} (h : LoadedBut B (i :: is) M) :
    LoadedBut B is (M.set i.val B[i]) := by
  intro j hj
  by_cases hji : j = i
  · subst hji
    exact Vector.getElem_set_self _
  · exact (Vector.getElem_set_ne i.isLt j.isLt (Fin.val_ne_of_ne (Ne.symm hji))).trans
      (h j (List.not_mem_cons_of_ne_of_not_mem hji hj))

theorem loadedBut_nil {B M : Block} (h : LoadedBut B [] M) : M = B := block_ext fun i => h i List.not_mem_nil

/-! ## What the driver's transactions do there -/

section
variable {e : Bool} {p : Phase} {H : HashWords}

theorem Accumulating.H_of_idle {s : State} (h : Accumulating e p H s) (hb : s.busy = false) : s.H = H := by
  rcases h.value with ⟨-, hH⟩ | ⟨H0, B0, hflight, -⟩
  · exact hH
  · exact Bool.noConfusion (hb.symm.trans hflight.1)

/-- No block is in flight, so the accumulator holds `H`. -/
abbrev Settled (e : Bool) (p : Phase) (H : HashWords) (s : State) : Prop := s.busy = false ∧ Accumulating e p H s

theorem kept_settled (e : Bool) (p : Phase) (H : HashWords) : Kept (Settled e p H) :=
  kept_idle.and (kept_accumulating e p H)

/-- `B` is being written to M, with the words at the indices `is` to come. -/
abbrev Loading (e : Bool) (p : Phase) (H : HashWords) (B : Block) (is : List (Fin 16)) (s : State) : Prop :=
  Accumulating e p H s ∧ LoadedBut B is s.M

theorem kept_loading (e : Bool) (p : Phase) (H : HashWords) (B : Block) (is : List (Fin 16)) :
    Kept (Loading e p H B is) :=
  (kept_accumulating e p H).and (kept_M (LoadedBut B is))

/-- R216, R190: MSGi is written whether or not a block is in flight. -/
theorem takes_msgWrite (B : Block) (i : Fin 16) (is : List (Fin 16)) :
    Takes (Loading e p H B (i :: is)) (htWord true (msgAddr i) B[i]) (Loading e p H B is) [] :=
  takes_of_effect (decodeHT_msg true i B[i]) (writeMsg i B[i])
    fun _ ⟨⟨herr, hever, hp, hvalue⟩, hload⟩ =>
      ⟨.wrMsg i B[i], ⟨⟨herr, hever, hp, hvalue⟩, loadedBut_set hload⟩, (List.append_nil _).symm⟩

/-- R186: a BLOCK after its POLL is accepted, and its update is on the way. -/
theorem takes_block (hp : p ≠ .final) (B : Block) :
    Takes (fun s => s.busy = false ∧ Loading e p H B [] s) (htWord true ctrlAddr 0x00000002)
      (Accumulating e .accum (blockUpdate H B)) [] := by
  refine takes_of_effect (i := .block) rfl (fun s => startRounds (loadWorking (loadSchedule s)))
    fun s ⟨hb, hacc, hload⟩ => ⟨.block hb (hacc.phase ▸ hp), ?_, (List.append_nil _).symm⟩
  have hflight := inFlight_of_block s
  rw [loadedBut_nil hload, hacc.H_of_idle hb] at hflight
  exact ⟨hacc.err, hacc.everErr, rfl, .inr ⟨H, B, hflight, rfl⟩⟩

/-- R187: FINAL after a block and its POLL is accepted. -/
theorem takes_final : Takes (Settled e .accum H) (htWord true ctrlAddr 0x00000003) (Settled e .final H) [] :=
  takes_of_effect (i := .final) rfl enterFinal fun _ ⟨hb, hacc⟩ =>
    ⟨.final hb hacc.phase, ⟨hb, hacc.err, hacc.everErr, rfl, .inl ⟨hb, hacc.H_of_idle hb⟩⟩,
      (List.append_nil _).symm⟩

/-- R214: with the phase FINAL, DIGESTj reads as H[j]. -/
theorem takes_digestRead (j : Fin 8) :
    Takes (Settled e .final H) (htWord false (digestAddr j) 0) (Settled e .final H) [H[j]] := by
  refine takes_of_effect (decodeHT_digest false j 0) (fun s => deliver (digestValue j s) s)
    fun s h => ⟨.read _ rfl, (kept_settled e .final H).deliver s _ h, ?_⟩
  obtain ⟨hb, hacc⟩ := h
  rw [deliver_replies, digestValue, if_pos hacc.phase, hacc.H_of_idle hb]

/-! ## Legs of the driver's run -/

/-- An INIT issued to an idle block is accepted, whatever else the state holds (R185). -/
theorem init_accepted_leg {s : State} {rest : List HostAction} (hb : s.busy = false) (ht : s.t = 0)
    (hs : schedules s.script (writeReg ctrlAddr 0x00000001 :: rest)) :
    ∃ s', Leg (Accumulating s.everErr .idle romIV) s s' [] rest := by
  obtain ⟨g, l, hscript, hl⟩ := schedules_transaction hs
  have he : Effect .init { s with script := l } _ := .init hb
  have hstep := (step_transaction hscript (.inr ⟨hb, ht⟩)).trans (exec_of_effect he)
  have hinv : Inv (clearError (enterIdle (loadInitialHash { s with script := l }))) := by simp [Inv, hb]
  exact ⟨_, .step hstep, hinv, ⟨rfl, rfl, rfl, .inl ⟨hb, rfl⟩⟩, (List.append_nil _).symm, hl⟩

theorem message_leg {B : Block} {s : State} {rest : List HostAction} (hi : Inv s) (hj : Accumulating e p H s)
    (hs : schedules s.script ((List.finRange 16).map (fun i => writeReg (msgAddr i) B[i]) ++ rest)) :
    ∃ s', Leg (Loading e p H B []) s s' [] rest := by
  have hnothing : LoadedBut B (List.finRange 16) s.M := fun i hi => absurd (List.mem_finRange i) hi
  obtain ⟨s', hleg⟩ := indexed_leg (kept_loading e p H B) (takes_msgWrite B) hi ⟨hj, hnothing⟩ hs
  rw [List.flatMap_eq_nil_iff.2 fun _ _ => rfl] at hleg
  exact ⟨s', hleg⟩

/-- One block: LOADBLK, POLL, BLOCK. -/
theorem block_leg (hp : p ≠ .final) {B : Block} {s : State} {rest : List HostAction} (hi : Inv s)
    (hj : Accumulating e p H s) (hs : schedules s.script (blockActions B ++ rest)) :
    ∃ s' words, Leg (Accumulating e .accum (blockUpdate H B)) s s' words rest ∧ PollsRead 1 words := by
  rw [blockActions, List.append_assoc, List.cons_append, List.cons_append, List.nil_append] at hs
  obtain ⟨s1, hload⟩ := message_leg hi hj hs
  obtain ⟨s2, words, hpoll, hidle, hwords⟩ := poll_leg (kept_loading e p H B []) hload.inv hload.kept hload.script
  obtain ⟨s3, hblock⟩ := transaction_leg (kept_idle.and (kept_loading e p H B [])) (takes_block hp B) hpoll.inv
    ⟨hidle, hpoll.kept⟩ hpoll.script
  exact ⟨s3, words, by simpa only [List.nil_append, List.append_nil] using hload.trans (hpoll.trans hblock), hwords⟩

/-- Further blocks, and the POLL after them: the accumulator is the left fold of the per-block update (R194). -/
theorem accumulate_leg {Bs : List Block} {s : State} {rest : List HostAction} (hi : Inv s)
    (hj : Accumulating e .accum H s) (hs : schedules s.script (Bs.flatMap blockActions ++ .poll [] :: rest)) :
    ∃ s' words, Leg (Settled e .accum (Bs.foldl blockUpdate H)) s s' words rest ∧
      PollsRead (Bs.length + 1) words := by
  induction Bs generalizing s H with
  | nil =>
    obtain ⟨s', words, hpoll, hidle, hwords⟩ := poll_leg (kept_accumulating e .accum H) hi hj hs
    exact ⟨s', words, hpoll.with_kept ⟨hidle, hpoll.kept⟩, hwords⟩
  | cons B Bs ih =>
    rw [List.flatMap_cons, List.append_assoc] at hs
    obtain ⟨s1, ws, hblock, hws⟩ := block_leg (by decide) hi hj hs
    obtain ⟨s2, us, hrest, hus⟩ := ih hblock.inv hblock.kept hblock.script
    exact ⟨s2, ws ++ us, hblock.trans hrest, hws.cons hus⟩

/-- The driver's run from an idle block up to its check. The phase is ACCUM at the FINAL, because there is a block. -/
theorem accepted_driver_comes_to_check {B : Block} {Bs : List Block} {s : State} (hb : s.busy = false) (ht : s.t = 0)
    (hs : schedules s.script (driverActions (B :: Bs))) :
    ∃ s' polled, Leg (Settled s.everErr .final (hashBlocks (B :: Bs))) s s' polled checkAndDigest ∧
      PollsRead ((B :: Bs).length + 1) polled := by
  rw [driverActions_eq, List.flatMap_cons, List.append_assoc] at hs
  obtain ⟨s1, hinit⟩ := init_accepted_leg hb ht hs
  obtain ⟨s2, ws, hblock, hws⟩ := block_leg (by decide) hinit.inv hinit.kept hinit.script
  obtain ⟨s3, us, hblocks, hus⟩ := accumulate_leg hblock.inv hblock.kept hblock.script
  obtain ⟨s4, hfinal⟩ := transaction_leg (kept_settled _ _ _) takes_final hblocks.inv hblocks.kept hblocks.script
  have hleg : Leg (Settled s.everErr .final (hashBlocks (B :: Bs))) s s4 _ checkAndDigest :=
    hinit.trans (hblock.trans (hblocks.trans hfinal))
  exact ⟨s4, ws ++ us, by simpa only [List.nil_append, List.append_nil] using hleg, hws.cons hus⟩

theorem flatMap_finRange_eq_toList (H : HashWords) : (List.finRange 8).flatMap (fun j => [H[j]]) = H.toList := by
  rw [← List.map_eq_flatMap, ← List.ofFn_eq_map, ← Vector.toList_ofFn]
  exact congrArg Vector.toList Vector.ofFn_getElem

/-- The check finds no error recorded, and the words read after it are the accumulator's. -/
theorem digest_leg {s : State} (hi : Inv s) (hj : Settled e .final H s) (hs : schedules s.script checkAndDigest) :
    ∃ s', Leg (Settled e .final H) s s' ([statusWord s] ++ H.toList) [] := by
  obtain ⟨g, l, hscript, hl⟩ := schedules_statusCheck hs
  have hstep := step_statusCheck hscript (host_turn_of_idle hi hj.1)
  rw [afterCheck_ok hj.2.err] at hstep
  have hJ : Kept (Settled e .final H) := kept_settled e .final H
  have hcheck : Leg (Settled e .final H) s _ [statusWord s] _ :=
    ⟨.step hstep, hi, hJ.deliver _ _ (hJ.script _ _ hj), rfl, hl⟩
  obtain ⟨s', hdigest⟩ := indexed_leg (fun _ => hJ) (fun j _ => takes_digestRead j) hcheck.inv hcheck.kept
    (by rw [List.append_nil]; exact hcheck.script)
  rw [flatMap_finRange_eq_toList] at hdigest
  exact ⟨s', hcheck.trans hdigest⟩

end

/-! ## What the driver returns -/

theorem hashResult_toList {m : List Byte} {polled : List Word} {status : Word} (H : HashWords)
    (hpolled : PollsRead (blockCount m.length + 1) polled) (herr : status.getLsbD 3 = false) :
    hashResult m (polled ++ ([status] ++ H.toList)) = some (.ok (serialize H)) := by
  obtain ⟨d, hd, hresult⟩ := hashResult_digest hpolled herr H.length_toList
  rwa [← Vector.toList_inj.1 hd] at hresult

/-- Settles O60: the driver's commands are all accepted up to its check, which so passes with `hashBlocks` of the
message's blocks in the accumulator, and the digest reads return its words. -/
theorem hashOnCoreReturnsSha256 : Obligations.HashOnCoreReturnsSha256 := by
  intro m actions s hactions hs hb ht
  rw [eq_driverActions hactions] at hs
  obtain ⟨B, Bs, hblocks⟩ := List.exists_cons_of_length_eq_add_one (messageBlocks_length m)
  rw [hblocks] at hs
  obtain ⟨s1, polled, hcheck, hpolled⟩ := accepted_driver_comes_to_check hb ht hs
  rw [← hblocks, messageBlocks_length] at hpolled
  obtain ⟨s2, hdigest⟩ := digest_leg hcheck.inv hcheck.kept hcheck.script
  have hrun := hcheck.trans hdigest
  obtain ⟨n, hn⟩ := hrun.reach
  obtain ⟨hidle, hacc⟩ := hrun.kept
  refine ⟨n, s2, _, hn, ⟨hrun.ended, hidle⟩, hacc.err, hacc.everErr, hrun.replies, ?result⟩
  case result =>
    have hbit := (statusWord_err s1).trans hcheck.kept.2.err
    rw [hashResult_toList _ hpolled hbit, sha256, hblocks]

end Sys2Proof.Machine
end

