-- ==== Sys2Proof/Proofs/RegisterAccess.lean ====
section
/-! PROOFS. The register accesses of 45_register_access.md: the reads (R210, R211, R214, R217, R218), the writes that
have no target (R213, R215, R219) and the MSGi write (R216). -/

namespace Sys2Proof.Machine

/-! ## The words of CTRL and STATUS -/

/-- A CTRL read, whatever its data field (R87 row 6). -/
theorem decodeHT_ctrlRead (data : Word) : decodeHT (htWord false 0x00 data) = .rdCtrl := by
  rw [decodeHT_htWord, if_neg (fun c => absurd c.1 Bool.false_ne_true), if_pos rfl]

/-- The STATUS address (R87 rows 7 and 8). -/
theorem decodeHT_status (we : Bool) (data : Word) :
    decodeHT (htWord we 0x01 data) = if we then .wrStatus data else .rdStatus := by
  have hctrl : (0x01 : PortAddr) ≠ 0x00 := by decide
  rw [decodeHT_htWord, if_neg (fun c => hctrl c.2), if_neg hctrl, if_pos rfl]

/-! ## Reads -/

/-- R58: a read appends its word to the host's replies and does nothing else. -/
theorem exec_of_readValue {i : Instr} {s : State} {v : Word} (h : readValue i s = some v) :
    exec i s = .next { s with replies := s.replies ++ [v] } :=
  exec_of_effect (.read v h)

theorem readValue_digest_final {s : State} (j : Fin 8) (hp : s.phase = .final) :
    readValue (.rdDigest j) s = some s.H[j] := by
  rw [readValue, digestValue, if_pos hp]

theorem readValue_digest_not_final {s : State} (j : Fin 8) (hp : s.phase ≠ .final) :
    readValue (.rdDigest j) s = some 0x00000000 := by
  rw [readValue, digestValue, if_neg hp]

/-- Settles O29: the words by address, and what each read returns by `readValue`. -/
theorem readsReturnAndChangeNothing : Obligations.ReadsReturnAndChangeNothing := by
  refine ⟨fun data => ⟨decodeHT_ctrlRead data, decodeHT_status false data, fun a => decodeHT_reserved false a data,
    fun j => decodeHT_digest false j data, fun n => decodeHT_msg false n data⟩, fun s => ?results⟩
  case results =>
    exact ⟨exec_of_readValue rfl, exec_of_readValue rfl, fun a => exec_of_readValue rfl,
      fun j hp => exec_of_readValue (readValue_digest_final j hp),
      fun j hp => exec_of_readValue (readValue_digest_not_final j hp), fun n => exec_of_readValue rfl⟩

/-! ## Writes -/

/-- Settles O30: each of these writes is rejected in every state. -/
theorem writesWithoutATargetAreRejected : Obligations.WritesWithoutATargetAreRejected := by
  refine fun data s => ⟨⟨decodeHT_status true data, ?status⟩, fun j => ⟨decodeHT_digest true j data, ?digest⟩,
    fun a => ⟨decodeHT_reserved true a data, ?reserved⟩⟩
  case status => exact exec_of_rejection (c := .writeRo) rfl
  case digest => exact exec_of_rejection (c := .writeRo) rfl
  case reserved => exact exec_of_rejection (c := .unmapped) rfl

/-- Settles O31: the new buffer is `M.set`, which differs from M at the operand only. -/
theorem msgWriteSetsOneWord : Obligations.MsgWriteSetsOneWord := by
  refine fun n v s => ⟨decodeHT_msg true n v, s.M.set n.val v, exec_of_effect (.wrMsg n v), ?written,
    fun k hk => ?kept⟩
  case written => exact Vector.getElem_set_self n.isLt
  case kept => exact Vector.getElem_set_ne n.isLt k.isLt (Fin.val_ne_of_ne hk.symm)

end Sys2Proof.Machine
end

