-- ==== Sys2Proof/Proofs/Exceptions.lean ====
section
/-! PROOFS. The error record of 60_exceptions.md and the block without traps: rejected operations are precise (R242), the
history flag is never cleared (R247), and a step neither stops (R240) nor, with nothing to do, changes anything (R257). -/

namespace Sys2Proof.Machine

/-! ## Precise errors -/

/-- R241, R249: an operation that is not rejected writes the code only where it clears the record. -/
theorem Effect.errcode_eq {i : Instr} {s s' : State} (he : Effect i s s') (haccept : rejection i s = none)
    (herr : s'.err = true) : s'.errcode = s.errcode := by
  cases he with
  | rejected c hc => rw [haccept] at hc; cases hc
  | init => cases herr
  | _ => simp

/-- Settles O20: a rejected operation is `raise`, and the others leave `err` and its code or clear them. -/
theorem errorsArePrecise : Obligations.ErrorsArePrecise := by
  refine ⟨fun i s c hreject => exec_of_rejection hreject, fun i s s' haccept hexec => ?accepted⟩
  case accepted =>
    have he := effect_of_exec hexec
    obtain ⟨hflag, herr⟩ := he.no_new_error haccept
    exact ⟨hflag, fun h => ⟨herr h, he.errcode_eq haccept h⟩⟩

/-! ## The history flag -/

/-- The history flag is set in `s'`, or it is as in `s` and `s'` holds no error that `s` does not. -/
def FlagFollows (s s' : State) : Prop :=
  s'.everErr = true ∨ (s'.everErr = s.everErr ∧ (s'.err = true → s.err = true))

theorem FlagFollows.everErr {s s' : State} (h : FlagFollows s s') (hflag : s.everErr = true) : s'.everErr = true :=
  h.elim id fun hkept => hkept.1.trans hflag

theorem FlagFollows.historyInv {s s' : State} (h : FlagFollows s s') (hinv : HistoryInv s) : HistoryInv s' := by
  intro herr
  rcases h with hset | ⟨hkept, hold⟩
  · exact hset
  · exact hkept.trans (hinv (hold herr))

/-- R247: a rejected operation sets the flag, and any other keeps it. -/
theorem Effect.flagFollows {i : Instr} {s s' : State} (he : Effect i s s') : FlagFollows s s' := by
  cases hreject : rejection i s with
  | some c =>
    rw [he.unique (.rejected c hreject)]
    exact .inl (raise_everErr s c)
  | none => exact .inr (he.no_new_error hreject)

/-- RESET clears the record and keeps the flag (70_reset_and_hazards.md R270, R247). -/
theorem flagFollows_resetBlock (s : State) : FlagFollows s (resetBlock s) :=
  .inr ⟨resetBlock_everErr s, fun herr => Bool.noConfusion herr⟩

theorem step_flagFollows {s s' : State} (h : step s = .next s') : FlagFollows s s' := by
  rcases step_cases h with ⟨i, l, -, he⟩ | ⟨l, -, rfl⟩ | rfl
  · have hscript : FlagFollows { s with script := l } s' := he.flagFollows
    exact hscript
  · exact flagFollows_resetBlock { s with script := l }
  · exact .inr ⟨rfl, id⟩

/-- Settles O21: both clauses about steps read off `FlagFollows`. -/
theorem historyFlagIsNeverCleared : Obligations.HistoryFlagIsNeverCleared :=
  ⟨fun c s => raise_everErr s c, fun _ _ hstep => (step_flagFollows hstep).everErr,
    fun _ _ hstep => (step_flagFollows hstep).historyInv⟩

/-! ## No traps, and waiting -/

/-- Settles O43: `fetch` finds an enabled operation, a RESET or nothing to do, and the sequencer word decodes. -/
theorem stepNeverStops : Obligations.StepNeverStops := fun _ hinv => step_next_of_inv hinv

/-- Settles O13: with an empty script and an idle sequencer word no agent has a step. -/
theorem idleBlockKeepsItsState : Obligations.IdleBlockKeepsItsState := fun _ hscript hbusy ht =>
  step_idle hscript hbusy ht

end Sys2Proof.Machine
end

/-! PROOFS. Reset and the end of runs (70_reset_and_hazards.md): RESET and INIT (R270, R271), where the operations run
(R289), the engine's 65 micro-steps (R285, R291), and that every run ends (R288), script entry by script entry. -/

namespace Sys2Proof.Machine

/-! ## RESET, and INIT after it -/

/-- Settles O16: the host's turn at a RESET is `resetBlock`, whose buffer is a constant vector. -/
theorem resetActionRestoresResetValues : Obligations.ResetActionRestoresResetValues := by
  intro s g rest hscript hturn
  exact ⟨_, step_reset hscript hturn, rfl, fun i => Vector.getElem_replicate i.isLt, rfl, rfl, rfl, rfl, rfl, rfl,
    rfl, rfl⟩

/-- R185: with busy = 0 INIT is accepted. -/
theorem exec_init_idle {s : State} (hb : s.busy = false) :
    exec .init s = .next (clearError (enterIdle (loadInitialHash s))) := exec_of_effect (.init hb)

/-- Settles O17: INIT writes H, phase, t, err and errcode, and RESET has written the same values there. -/
theorem initAfterResetChangesNothing : Obligations.InitAfterResetChangesNothing := by
  refine ⟨fun s => exec_init_idle (resetBlock_busy s), fun s s' hb hexec => ?agree⟩
  case agree =>
    rw [exec_init_idle hb] at hexec
    cases hexec
    exact ⟨rfl, rfl, hb.symm, rfl, rfl, rfl, rfl, fun i => Vector.getElem_replicate i.isLt⟩

/-! ## Where the operations run -/

/-- Settles O41: an enabled operation has an effect. -/
theorem everyInstructionRunsWhereEnabled : Obligations.EveryInstructionRunsWhereEnabled := by
  intro i s henabled
  obtain ⟨s', he⟩ := effect_exists henabled
  exact ⟨s', exec_of_effect he⟩

/-! ## The engine's micro-steps -/

/-- With the host's script issued, n rounds are enabled one after the other while the counter stays within 64
(R285). -/
theorem engine_runs_rounds {s : State} (hs : s.script = []) (hb : s.busy = true) (n : Nat)
    (hn : s.t.toNat + n ≤ 64) :
    ∃ s' : State, Host.Core.run core n s = .next s' ∧ s'.busy = true ∧ s'.script = [] ∧
      s'.t.toNat = s.t.toNat + n := by
  obtain ⟨s', hrun, -, hrest⟩ := run_rounds (J := fun _ => True) (fun _ _ _ _ => trivial) trivial hb hs n hn
  exact ⟨s', hrun, hrest⟩

/-- With n rounds to go, n rounds and the FOLD end the block (R285). -/
theorem engine_ends_block {s : State} (hs : s.script = []) (hb : s.busy = true) {n : Nat}
    (hn : s.t.toNat + n = 64) :
    ∃ s' : State, Host.Core.run core (n + 1) s = .next s' ∧ s'.script = [] ∧ s'.busy = false ∧ s'.t = 0 := by
  obtain ⟨u, hrounds, hbusy, hscript, ht⟩ := engine_runs_rounds hs hb n (Nat.le_of_eq hn)
  have h64 : u.t = 64 := BitVec.eq_of_toNat_eq (ht.trans hn)
  exact ⟨_, run_snoc hrounds (step_fold hscript hbusy h64), hscript, rfl, rfl⟩

/-- Settles O51: k rounds for each k, and 64 rounds with the FOLD. -/
theorem blockTakesSixtyFiveMicroSteps : Obligations.BlockTakesSixtyFiveMicroSteps := by
  intro s hb ht hs
  have hzero : s.t.toNat = 0 := by rw [ht]; rfl
  refine ⟨fun k hk => ?rounds, ?done⟩
  case rounds =>
    obtain ⟨s', hrun, hbusy, -, hround⟩ := engine_runs_rounds hs hb k (by omega)
    exact ⟨s', hrun, hbusy, by omega⟩
  case done =>
    obtain ⟨s', hrun, -, hidle⟩ := engine_ends_block hs hb (n := 64) (by omega)
    exact ⟨s', hrun, hidle⟩

/-! ## Every run ends -/

/-- The driver's check leaves out entries at the front at most (41_preprocessor_host.md R118). -/
theorem afterCheck_suffix (status : Word) (skip : Nat) (rest : List HostEntry) :
    afterCheck status skip rest <:+ rest := by
  unfold afterCheck
  split
  · exact List.drop_suffix skip rest
  · exact List.suffix_refl rest

/-- The first entry of the script is issued, a POLL with all its reads (45_register_access.md R212), and what is left is
the end of the rest. -/
theorem entry_issued {s : State} {g : Nat} {a : HostAction} {rest : List HostEntry} (hi : Inv s)
    (hs : s.script = ⟨g, a⟩ :: rest) : ∃ s', Reach s s' ∧ Inv s' ∧ s'.script <:+ rest := by
  cases a with
  | transaction T =>
    obtain ⟨s0, s', -, hi0, hs0, -, he, hreach, -⟩ := transaction_done kept_true hi trivial hs
    exact ⟨s', hreach, inv_effect hi0 he, by rw [effect_script he, hs0]⟩
  | poll gaps =>
    obtain ⟨s', -, -, hreach, hi', -, hs', -⟩ := poll_done kept_true gaps s g rest hi trivial hs
    exact ⟨s', hreach, hi', by rw [hs']⟩
  | statusCheck skip =>
    obtain ⟨s1, g1, hreach, hi1, -, hs1, -, hturn, -⟩ := to_turn kept_true g s _ rest hi trivial hs
    exact ⟨_, hreach.trans (.step (step_statusCheck hs1 hturn)), hi1, afterCheck_suffix _ skip rest⟩
  | reset =>
    obtain ⟨s1, g1, hreach, -, -, hs1, -, hturn, -⟩ := to_turn kept_true g s _ rest hi trivial hs
    exact ⟨_, hreach.trans (.step (step_reset hs1 hturn)), inv_resetBlock _, List.suffix_refl rest⟩

/-- The whole script is issued, by induction on a bound for its length: an entry leaves a shorter one. -/
theorem script_issued (n : Nat) {s : State} (hi : Inv s) (hn : s.script.length ≤ n) :
    ∃ s', Reach s s' ∧ Inv s' ∧ s'.script = [] := by
  induction n generalizing s with
  | zero => exact ⟨s, .refl s, hi, List.eq_nil_of_length_eq_zero (Nat.le_zero.1 hn)⟩
  | succ n ih =>
    cases hs : s.script with
    | nil => exact ⟨s, .refl s, hi, hs⟩
    | cons e rest =>
      obtain ⟨s1, hentry, hi1, hsuffix⟩ := entry_issued hi hs
      have hrest : rest.length ≤ n := by rw [hs] at hn; exact Nat.le_of_succ_le_succ hn
      obtain ⟨s2, hreach, hend⟩ := ih hi1 (hsuffix.length_le.trans hrest)
      exact ⟨s2, hentry.trans hreach, hend⟩

/-- With the script issued, the engine finishes the block in flight, if there is one (R288). -/
theorem engine_ends_run {s : State} (hi : Inv s) (hs : s.script = []) : ∃ s', Reach s s' ∧ RunEnded s' := by
  obtain ⟨-, -, -, hle, -, -⟩ := hi
  cases hb : s.busy with
  | false => exact ⟨s, .refl s, hs, hb⟩
  | true =>
    obtain ⟨s', hrun, hscript, hidle, -⟩ := engine_ends_block hs hb (Nat.add_sub_cancel' hle)
    exact ⟨s', ⟨_, hrun⟩, hscript, hidle⟩

/-- Settles O52: the host issues its script, and then the engine ends. -/
theorem everyRunEnds : Obligations.EveryRunEnds := by
  intro s hi
  obtain ⟨s1, hissued, hi1, hs1⟩ := script_issued s.script.length hi le_rfl
  obtain ⟨s2, hends, hended⟩ := engine_ends_run hi1 hs1
  obtain ⟨n, hrun⟩ := hissued.trans hends
  exact ⟨n, s2, hrun, hended⟩

end Sys2Proof.Machine
